-- ==== Sys2Proof/Word.lean ====
section
/-! DEFINITION. The word of the core (`00_scope.md` R5, R6): registers, memory cells, the program counter, opcodes and
operands are all one byte wide. -/

namespace Sys2Proof

/-- An 8-bit value, bit 0 the least significant (R6). -/
abbrev Byte := BitVec 8

/-- The 9-bit intermediate `s[8:0]` of ADD and SUB (R6, `42_alu.md` R90, R91). -/
abbrev Nine := BitVec 9

end Sys2Proof
end

