-- ==== Sys2Proof/Config.lean ====
section
/-! DEFINITION. The implementation's parameters (`00_scope.md` R5): `MEM_SIZE = 256` is a constant, `max_steps` an argument of
each run, and there is no other configuration. The spec leaves no value open, so there is no free value. -/

namespace Sys2Proof.Config

/-- `MEM_SIZE`, the number of memory cells (R5, decision D1; log entry 4: DEDUCED, safe). -/
def memSize : Nat := 256

end Sys2Proof.Config
end

