-- ==== Sys2Proof/Syntax.lean ====
section
/-! DEFINITION. The instructions, one constructor for each row of `spec/opcode_table.json` (`30_encoding.md` R53). -/

namespace Sys2Proof

/-- An instruction, with its operand byte where its format is F1 (R50, R52). The constructors' names follow the Mnemonic column
of R53; `input` and `output` are IN and OUT. -/
inductive Instr where
  | nop
  | ldiA (imm : Byte)
  | ldiB (imm : Byte)
  | lda (addr : Byte)
  | sta (addr : Byte)
  | addB
  | subB
  | andB
  | orB
  | xorB
  | notA
  | jmp (addr : Byte)
  | jz (addr : Byte)
  | jc (addr : Byte)
  | input
  | output
  | hlt
  deriving DecidableEq, Repr

end Sys2Proof
end

