-- ==== Sys2Proof/WellFormed.lean ====
section
/-! DEFINITION. What is well formed. An operand byte may have any value (`30_encoding.md` R54), so no term of `Instr` is ill
formed; a BYTE SEQUENCE offered as one instruction can be. The check here is written from the ranges of R54 and the opcode
list of R50, not from the decoder's table. -/

namespace Sys2Proof

/-- Every instruction is well formed: its only field is an operand byte, and all 256 values are legal (R52, R54). -/
def Instr.wellFormed : Instr → Bool
  | .nop | .ldiA _ | .ldiB _ | .lda _ | .sta _ | .addB | .subB | .andB | .orB | .xorB | .notA
  | .jmp _ | .jz _ | .jc _ | .input | .output | .hlt => true

/-- The opcode byte is one of the 17 defined values: it is none of 0x10 to 0xFE (R54). -/
def legalOpcode (op : Byte) : Bool :=
  op.toNat < 0x10 || op.toNat == 0xFF

/-- The opcode byte is of format F1: "opcodes 0x01, 0x02, 0x03, 0x04, 0x0B, 0x0C, 0x0D are F1" (R50). -/
def takesOperand (op : Byte) : Bool :=
  [0x01, 0x02, 0x03, 0x04, 0x0B, 0x0C, 0x0D].contains op.toNat

/-- The bytes are exactly one instruction: a legal opcode byte, then one operand byte if it is of format F1 and none if it is of
format F0 (R50, R54). -/
def wellFormedBytes : List Byte → Bool
  | [] => false
  | op :: operands => legalOpcode op && operands.length == (if takesOperand op then 1 else 0)

end Sys2Proof
end

