-- ==== Sys2Proof/Decode.lean ====
section
/-! DEFINITION. Decoding and encoding, both from the opcode map of `30_encoding.md` R53. -/

namespace Sys2Proof

/-- What an opcode byte selects: a one-byte instruction (format F0), a two-byte one that still lacks its operand byte (format
F1), or nothing (R50, R54). -/
inductive Selection where
  | f0 (i : Instr)
  | f1 (withOperand : Byte → Instr)
  | illegal

/-- The opcode map of R53: the whole byte is compared with the 17 values, anything else is illegal (R54). -/
def select (op : Byte) : Selection :=
  match op with
  | 0x00#8 => .f0 .nop
  | 0x01#8 => .f1 .ldiA
  | 0x02#8 => .f1 .ldiB
  | 0x03#8 => .f1 .lda
  | 0x04#8 => .f1 .sta
  | 0x05#8 => .f0 .addB
  | 0x06#8 => .f0 .subB
  | 0x07#8 => .f0 .andB
  | 0x08#8 => .f0 .orB
  | 0x09#8 => .f0 .xorB
  | 0x0A#8 => .f0 .notA
  | 0x0B#8 => .f1 .jmp
  | 0x0C#8 => .f1 .jz
  | 0x0D#8 => .f1 .jc
  | 0x0E#8 => .f0 .input
  | 0x0F#8 => .f0 .output
  | 0xFF#8 => .f0 .hlt
  | _ => .illegal

/-- Why a byte sequence is rejected. -/
inductive DecodeError where
  /-- The opcode byte matches no table entry (R54). -/
  | invalidOpcode (op : Byte)
  /-- There are no bytes to decode; the core never meets this, since its memory wraps (`20_memory.md` R33). -/
  | noBytes
  /-- An F1 opcode byte with no operand byte after it; the core never meets this either. -/
  | missingOperand (op : Byte)
  deriving DecidableEq, Repr

/-- The instruction at the head of a byte sequence, and the bytes after it. Total: every sequence decodes or is rejected by
name (R55). -/
def decode : List Byte → Except DecodeError (Instr × List Byte)
  | [] => .error .noBytes
  | op :: rest =>
    match select op, rest with
    | .f0 i, rest => .ok (i, rest)
    | .f1 withOperand, x :: rest => .ok (withOperand x, rest)
    | .f1 _, [] => .error (.missingOperand op)
    | .illegal, _ => .error (.invalidOpcode op)

/-- How many operand bytes the core fetches after the opcode byte: one for format F1, none for format F0 and for an illegal
byte (R50, R54). -/
def operandBytes (op : Byte) : Nat :=
  match select op with
  | .f0 _ => 0
  | .f1 _ => 1
  | .illegal => 0

/-- The bytes of an instruction in address order (R50, R53). -/
def encode : Instr → List Byte
  | .nop => [0x00#8]
  | .ldiA imm => [0x01#8, imm]
  | .ldiB imm => [0x02#8, imm]
  | .lda addr => [0x03#8, addr]
  | .sta addr => [0x04#8, addr]
  | .addB => [0x05#8]
  | .subB => [0x06#8]
  | .andB => [0x07#8]
  | .orB => [0x08#8]
  | .xorB => [0x09#8]
  | .notA => [0x0A#8]
  | .jmp addr => [0x0B#8, addr]
  | .jz addr => [0x0C#8, addr]
  | .jc addr => [0x0D#8, addr]
  | .input => [0x0E#8]
  | .output => [0x0F#8]
  | .hlt => [0xFF#8]

/-- The length of an instruction in bytes, the `length` column of `opcode_table.json` (R50). -/
def Instr.length : Instr → Nat
  | .nop | .addB | .subB | .andB | .orB | .xorB | .notA | .input | .output | .hlt => 1
  | .ldiA _ | .ldiB _ | .lda _ | .sta _ | .jmp _ | .jz _ | .jc _ => 2

/-- The two bytes of a table word: bit 0 is the least significant bit of the first byte, the second byte is bits 15 to 8, and
every bit from `nbits` on is 0 (log entry 12: DEDUCED, safe). -/
def tableBytes (nbits w : Nat) : List Byte :=
  [BitVec.ofNat 8 (w % 2 ^ nbits), BitVec.ofNat 8 (w % 2 ^ nbits / 256)]

/-- The instruction the decoder reads from a table word. -/
def decodeTableWord (nbits w : Nat) : Option Instr :=
  match decode (tableBytes nbits w) with
  | .ok (i, _) => some i
  | .error _ => none

end Sys2Proof
end

