-- ==== Sys2Proof/Machine/State.lean ====
section
/-! DEFINITION. The complete architectural state (`10_state.md` R10), the one fault, the refusals, and the state after reset
(R23). -/

namespace Sys2Proof.Machine

/-- The memory array (`20_memory.md` R30) as its listed cells, in the canonical form `Memory.wf`. A cell that is not listed holds
its reset value (log entry 3: DESIGN CHOICE, safe). -/
abbrev Memory := List Host.Cell

/-- The three independent flag bits (`10_state.md` R15); they have no packed layout. -/
structure Flags where
  /-- Zero -/
  z : Bool
  /-- Carry -/
  c : Bool
  /-- Negative -/
  n : Bool
  deriving DecidableEq, Repr

/-- Everything the machine holds (R10). -/
structure State where
  /-- the accumulator (R11) -/
  a : Byte
  /-- the auxiliary register (R12) -/
  b : Byte
  /-- the output latch (R13) -/
  out : Byte
  /-- the program counter (R14) -/
  pc : Byte
  /-- Zero, Carry and Negative (R15) -/
  flags : Flags
  /-- set by HLT, cleared by reset alone (R18) -/
  halted : Bool
  /-- the 256 cells (R30) -/
  mem : Memory
  deriving DecidableEq, Repr

/-- The only way a step can fail (`60_exceptions.md` R120, R122). -/
inductive Fault where
  /-- Raised by a step whose opcode byte is one of 0x10 to 0xFE, and by nothing else. It carries the offending byte (R120) and
  the state it leaves, in which PC alone has moved, by one (R121): the step result `Fault(InvalidOpcode(op), state')` of
  `00_scope.md` R6. Safe: the spec itself gives this outcome (log entry 2: DESIGN CHOICE, safe). -/
  | invalidOpcode (op : Byte) (after : State)
  deriving DecidableEq, Repr

/-- Instructions without a meaning. -/
inductive Refusal where
  /-- Raised by an arm of `exec` that has no meaning yet; no arm of this model raises it. Safe. -/
  | notModelled (mnemonic : String)
  deriving DecidableEq, Repr

/-- The machine right after reset: every register, flag and memory cell 0, `halted` false (R23). -/
def State.reset : State where
  a := 0
  b := 0
  out := 0
  pc := 0
  flags := { z := false, c := false, n := false }
  halted := false
  mem := []

/-- What a step, a meaning or an exception answers. -/
abbrev StepResult := Host.Outcome State Fault Refusal

end Sys2Proof.Machine
end

