-- ==== Sys2Proof/Machine/Flags.lean ====
section
/-! DEFINITION. The flag unit (`10_state.md` R16). -/

namespace Sys2Proof.Machine

/-- `FlagsFrom(value, carry)`: Zero iff the value masked to 8 bits is 0, Negative its bit 7, Carry the low bit of `carry`. All
three are written, whatever they were. `value` and `carry` are non-negative integers, and the masks are R16's own. -/
def flagsFrom (value carry : Nat) : Flags where
  z := BitVec.ofNat 8 value == 0
  n := (BitVec.ofNat 8 value)[7]
  c := (BitVec.ofNat 1 carry)[0]

end Sys2Proof.Machine
end

