-- ==== Sys2Proof/Machine/Ops.lean ====
section
/-! DEFINITION. The named operations over memory and registers, fetching, and raising InvalidOpcode. -/

namespace Sys2Proof.Machine

/-! ### The memory array -/

/-- What a cell that is not listed holds: its reset value 0 (`10_state.md` R23, R24). -/
def Memory.unlisted : Byte := 0

/-- The byte in cell `k`. -/
def Memory.lookup : Memory → Nat → Byte
  | [], _ => Memory.unlisted
  | (j, v) :: rest, k => if j = k then v else Memory.lookup rest k

/-- The list without cell `k`. -/
def Memory.erase : Memory → Nat → Memory
  | [], _ => []
  | (j, v) :: rest, k => if j = k then Memory.erase rest k else (j, v) :: Memory.erase rest k

/-- Cell `k` put before the first listed cell with a higher address. -/
def Memory.place : Memory → Nat → Byte → Memory
  | [], k, v => [(k, v)]
  | (j, w) :: rest, k, v => if k < j then (k, v) :: (j, w) :: rest else (j, w) :: Memory.place rest k v

/-- `Mem[addr]`. -/
def Memory.read (m : Memory) (addr : Byte) : Byte := m.lookup addr.toNat

/-- `Mem[addr] <- v`. Writing what an unlisted cell holds removes the entry, so that equal memories are equal lists. -/
def Memory.write (m : Memory) (addr v : Byte) : Memory :=
  if v = Memory.unlisted then m.erase addr.toNat else (m.erase addr.toNat).place addr.toNat v

/-- The cells are in strictly rising order from `low`, below `MEM_SIZE`, and none holds what an unlisted cell holds. -/
def Memory.wfFrom (low : Nat) : Memory → Bool
  | [] => true
  | (k, v) :: rest => low ≤ k && k < Config.memSize && v != Memory.unlisted && Memory.wfFrom (k + 1) rest

/-- The canonical form of the memory list. -/
def Memory.wf (m : Memory) : Bool := Memory.wfFrom 0 m

/-! ### Access primitives (`20_memory.md` R31, R32, R33) -/

/-- `MemRead(addr, 1)`: no side effect, never fails (R31). -/
def State.memRead (s : State) (addr : Byte) : Byte := s.mem.read addr

/-- `MemWrite(addr, 1, v)`: changes that one cell and nothing else, never fails (R32). -/
def State.memWrite (s : State) (addr v : Byte) : State := { s with mem := s.mem.write addr v }

/-- `Fetch()`: the byte at PC, and the state in which PC is one more modulo 256 (R33). -/
def State.fetch (s : State) : Byte × State := (s.memRead s.pc, { s with pc := s.pc + 1 })

/-- `k` fetches in a row: the bytes in order, and the state after them. -/
def State.fetchBytes : Nat → State → List Byte × State
  | 0, s => ([], s)
  | k + 1, s =>
    let first := s.fetch
    let rest := State.fetchBytes k first.2
    (first.1 :: rest.1, rest.2)

/-- Fetching an instruction: the opcode byte, then the operand bytes that the opcode byte calls for (`40_control.md` R71 (1) to
(3)). An illegal opcode byte consumes itself alone (`30_encoding.md` R54). -/
def State.fetchInstr (s : State) : List Byte × State :=
  let opcode := s.fetch
  let operands := opcode.2.fetchBytes (operandBytes opcode.1)
  (opcode.1 :: operands.1, operands.2)

/-! ### Writing registers -/

/-- A and the flags together: the new A is `v`, and the flag unit sees `v` with the instruction's own carry term
(`40_control.md` R71, `10_state.md` R17). -/
def State.setAWithFlags (s : State) (v : Byte) (carry : Nat) : State :=
  { s with a := v, flags := flagsFrom v.toNat carry }

/-- B and the flags together (`41_load_store.md` R81). -/
def State.setBWithFlags (s : State) (v : Byte) (carry : Nat) : State :=
  { s with b := v, flags := flagsFrom v.toNat carry }

/-- PC overwritten by a control transfer (`43_jumps.md`). -/
def State.jumpTo (s : State) (target : Byte) : State := { s with pc := target }

/-! ### The one exception -/

/-- `raise InvalidOpcode(op)` in the state after the opcode fetch: there is no trap entry inside the machine, nothing is saved or
rolled back, and the step ends with the fault (`60_exceptions.md` R120, R121, R125). There is no return from it (R126). -/
def raiseInvalidOpcode (op : Byte) (afterFetch : State) : StepResult :=
  .fault (.invalidOpcode op afterFetch)

end Sys2Proof.Machine
end

