-- ==== Sys2Proof/Machine/Alu.lean ====
section
/-! DEFINITION. ADD, SUB, AND, OR, XOR and NOT (`42_alu.md`). PC is past the instruction's byte (`40_control.md` R71). -/

namespace Sys2Proof.Machine

/-- The 9-bit sum `s := A + B`, bit 8 the carry out (R90). -/
def sum9 (x y : Byte) : Nine := x.setWidth 9 + y.setWidth 9

/-- The 9-bit difference `s := (A - B) & 0x1FF`, bit 8 the borrow (R91). -/
def difference9 (x y : Byte) : Nine := x.setWidth 9 - y.setWidth 9

/-- A 9-bit result written back: A takes the low 8 bits, and bit 8 is the carry term (R90, R91). -/
def State.setAFromNine (s : State) (r : Nine) : State := s.setAWithFlags (r.setWidth 8) r[8].toNat

/-- ADD B (R90). -/
def execAddB (s : State) : StepResult := .next (s.setAFromNine (sum9 s.a s.b))

/-- SUB B (R91). -/
def execSubB (s : State) : StepResult := .next (s.setAFromNine (difference9 s.a s.b))

/-- AND B, Carry 0 (R92). -/
def execAndB (s : State) : StepResult := .next (s.setAWithFlags (s.a &&& s.b) 0)

/-- OR B, Carry 0 (R93). -/
def execOrB (s : State) : StepResult := .next (s.setAWithFlags (s.a ||| s.b) 0)

/-- XOR B, Carry 0 (R94). -/
def execXorB (s : State) : StepResult := .next (s.setAWithFlags (s.a ^^^ s.b) 0)

/-- NOT A, Carry 0 (R95). -/
def execNotA (s : State) : StepResult := .next (s.setAWithFlags (~~~s.a) 0)

end Sys2Proof.Machine
end

