-- ==== Sys2Proof/Machine/Control.lean ====
section
/-! DEFINITION. NOP and HLT (`40_control.md`). As in every meaning, the instruction's bytes have been fetched and PC is past
them when it starts (R70, R71). -/

namespace Sys2Proof.Machine

/-- NOP: "no state change besides PC advance" (R72). -/
def execNop (s : State) : StepResult := .next s

/-- HLT: "halted := true" (R73). -/
def execHlt (s : State) : StepResult := .next { s with halted := true }

end Sys2Proof.Machine
end

