-- ==== Sys2Proof/Machine/InOut.lean ====
section
/-! DEFINITION. IN and OUT (`44_io.md`). PC is past the instruction's byte (`40_control.md` R71). -/

namespace Sys2Proof.Machine

/-- IN: a stub that writes the constant 0 to A and sets the flags from it (R110). It is no free input
(`93_implementation_defined.md` U4). -/
def execInput (s : State) : StepResult := .next (s.setAWithFlags 0 0)

/-- OUT: "OUT := A"; no flag is written (R111). -/
def execOutput (s : State) : StepResult := .next { s with out := s.a }

end Sys2Proof.Machine
end

