-- ==== Sys2Proof/Machine/Operands.lean ====
section
/-! DEFINITION. The two operand forms of the core, and there are no others (`41_load_store.md` R84, `30_encoding.md` R52). -/

namespace Sys2Proof.Machine

/-- Immediate: the operand byte is the datum (LDI A, LDI B). -/
def immediate (operand : Byte) : Byte := operand

/-- Absolute: the operand byte is the address, `EA = operand` (LDA and STA; for JMP, JZ and JC, the target). It is never
extended, scaled or added to anything (R52). -/
def effectiveAddress (operand : Byte) : Byte := operand

end Sys2Proof.Machine
end

