-- ==== Sys2Proof/Machine/Jumps.lean ====
section
/-! DEFINITION. JMP, JZ and JC (`43_jumps.md`). PC is past the operand byte when a meaning starts, taken or not
(`40_control.md` R71). -/

namespace Sys2Proof.Machine

/-- The conditional transfer: to the target iff the condition holds, else PC stays past the operand (R101, R102). -/
def State.jumpIf (s : State) (condition : Bool) (target : Byte) : State :=
  if condition then s.jumpTo target else s

/-- JMP addr: "PC := addr" (R100). -/
def execJmp (addr : Byte) (s : State) : StepResult := .next (s.jumpTo (effectiveAddress addr))

/-- JZ addr: "PC := addr iff Zero==1" (R101). -/
def execJz (addr : Byte) (s : State) : StepResult := .next (s.jumpIf s.flags.z (effectiveAddress addr))

/-- JC addr: "PC := addr iff Carry==1" (R102). -/
def execJc (addr : Byte) (s : State) : StepResult := .next (s.jumpIf s.flags.c (effectiveAddress addr))

end Sys2Proof.Machine
end

