-- ==== Sys2Proof/Machine/LoadStore.lean ====
section
/-! DEFINITION. LDI A, LDI B, LDA and STA (`41_load_store.md`). PC is past the instruction's bytes (`40_control.md` R71). -/

namespace Sys2Proof.Machine

/-- LDI A,#i: "A := immediate", flags from it, Carry 0 (R80). -/
def execLdiA (imm : Byte) (s : State) : StepResult := .next (s.setAWithFlags (immediate imm) 0)

/-- LDI B,#i: "B := immediate", flags from it, Carry 0 (R81). -/
def execLdiB (imm : Byte) (s : State) : StepResult := .next (s.setBWithFlags (immediate imm) 0)

/-- LDA addr: "A := memory[addr]", flags from the byte loaded, Carry 0 (R82). -/
def execLda (addr : Byte) (s : State) : StepResult :=
  .next (s.setAWithFlags (s.memRead (effectiveAddress addr)) 0)

/-- STA addr: "memory[addr] := A"; no flag and no register is written (R83). -/
def execSta (addr : Byte) (s : State) : StepResult := .next (s.memWrite (effectiveAddress addr) s.a)

end Sys2Proof.Machine
end

