-- ==== Sys2Proof/Machine/Dispatch.lean ====
section
/-! DEFINITION. The dispatch of `40_control.md` R70: one arm per instruction, each one call of its meaning. The state given to
`exec` is the one after the instruction's bytes have been fetched. -/

namespace Sys2Proof.Machine

def exec (i : Instr) (s : State) : Host.Outcome State Fault Refusal :=
  match i with
  | .nop => Sys2Proof.Machine.execNop s
  | .ldiA imm => Sys2Proof.Machine.execLdiA imm s
  | .ldiB imm => Sys2Proof.Machine.execLdiB imm s
  | .lda addr => Sys2Proof.Machine.execLda addr s
  | .sta addr => Sys2Proof.Machine.execSta addr s
  | .addB => Sys2Proof.Machine.execAddB s
  | .subB => Sys2Proof.Machine.execSubB s
  | .andB => Sys2Proof.Machine.execAndB s
  | .orB => Sys2Proof.Machine.execOrB s
  | .xorB => Sys2Proof.Machine.execXorB s
  | .notA => Sys2Proof.Machine.execNotA s
  | .jmp addr => Sys2Proof.Machine.execJmp addr s
  | .jz addr => Sys2Proof.Machine.execJz addr s
  | .jc addr => Sys2Proof.Machine.execJc addr s
  | .input => Sys2Proof.Machine.execInput s
  | .output => Sys2Proof.Machine.execOutput s
  | .hlt => Sys2Proof.Machine.execHlt s

end Sys2Proof.Machine
end

