-- ==== Sys2Proof/Machine/Cycle.lean ====
section
/-! DEFINITION. The instruction cycle (`40_control.md` R70, R71). It stands here, and `Machine/Step.lean` only calls it. -/

namespace Sys2Proof.Machine

/-- One cycle of a core that is not halted: fetch, decode, then the instruction's effect, or the fault with the opcode byte,
which is the first byte fetched (log entries 5 and 11: DEDUCED, safe). -/
def cycle (s : State) : StepResult :=
  let fetched := s.fetchInstr
  match decode fetched.1 with
  | .ok (i, _) => exec i fetched.2
  | .error _ => raiseInvalidOpcode s.fetch.1 fetched.2

/-- A step request: the cycle, or nothing on a halted core (`10_state.md` R18, `70_reset_and_hazards.md` R143; log entry 1:
DEDUCED, unsafe). -/
def stepOrHold (s : State) : StepResult :=
  if s.halted then .next s else cycle s

end Sys2Proof.Machine
end

