-- ==== Sys2Proof/Machine/Step.lean ====
section
/-! DEFINITION. One step, and placing an instruction where the next step fetches it. -/

namespace Sys2Proof.Machine

/-- One step (`40_control.md` R70). A halted core takes no step: the request leaves the state as it is
(`70_reset_and_hazards.md` R143; log entry 1: DEDUCED, unsafe). -/
def step (s : State) : Host.Outcome State Fault Refusal := stepOrHold s

/-- `s` with the instruction of a table word in the two cells at PC, and not halted, so that the next step fetches and runs it.
It stands for the host's image load (log entry 6: DESIGN CHOICE, safe). -/
def State.withFetchWord (s : State) (nbits w : Nat) : State :=
  let bytes := tableBytes nbits w
  (({ s with halted := false }).memWrite s.pc (bytes.getD 0 0)).memWrite (s.pc + 1) (bytes.getD 1 0)

end Sys2Proof.Machine
end

