-- ==== Sys2Proof/Machine/Access.lean ====
section
/-! DEFINITION. The memory accesses of one step, in order (`20_memory.md` R36). The list is the model's own view of a step; it is
no state, and no meaning reads it (log entry 9: DEDUCED, unsafe for claims about the list). -/

namespace Sys2Proof.Machine

/-- One access of one byte (R36): an address read, or an address and the byte written to it. -/
inductive Access where
  | read (addr : Byte)
  | write (addr v : Byte)
  deriving DecidableEq, Repr

/-- Reads of `k` cells in a row from `addr`, wrapping at the top of memory (R33). -/
def readsFrom (addr : Byte) : Nat → List Access
  | 0 => []
  | k + 1 => .read addr :: readsFrom (addr + 1) k

/-- The data access of an instruction in a state: LDA reads one cell, STA writes one, no other instruction has any (R36). -/
def dataAccesses (i : Instr) (s : State) : List Access :=
  match i with
  | .lda addr => [.read (effectiveAddress addr)]
  | .sta addr => [.write (effectiveAddress addr) s.a]
  | .nop | .ldiA _ | .ldiB _ | .addB | .subB | .andB | .orB | .xorB | .notA
  | .jmp _ | .jz _ | .jc _ | .input | .output | .hlt => []

/-- The accesses of one step: the bytes fetched, then the data access. A halted core makes none; an illegal opcode byte is one
read (R36). -/
def stepAccesses (s : State) : List Access :=
  if s.halted then []
  else
    let fetched := s.fetchInstr
    let reads := readsFrom s.pc fetched.1.length
    match decode fetched.1 with
    | .ok (i, _) => reads ++ dataAccesses i fetched.2
    | .error _ => reads

/-- The memory after a list of accesses: reads change nothing, writes take effect in order. -/
def Memory.after : Memory → List Access → Memory
  | m, [] => m
  | m, .read _ :: rest => Memory.after m rest
  | m, .write addr v :: rest => Memory.after (m.write addr v) rest

end Sys2Proof.Machine
end

