-- ==== Sys2Proof/Machine/Run.lean ====
section
/-! DEFINITION. The Scheduler: the bounded run loop (`70_reset_and_hazards.md` R142), and the image load (`20_memory.md`
R44). -/

namespace Sys2Proof.Machine

/-- The loop of R142 with `count` steps behind it and `budget` steps left: `halted` is tested before every step, a fault ends the
run at once, and a step that does not fault is counted. Its answer is the count and the state at the end (R144), or the
fault. -/
def runFrom (count : Nat) : Nat → State → Host.Outcome (Nat × State) Fault Refusal
  | 0, s => .next (count, s)
  | budget + 1, s =>
    if s.halted then .next (count, s)
    else
      match step s with
      | .next t => runFrom (count + 1) budget t
      | .fault f => .fault f
      | .refused r => .refused r

/-- `run(max_steps)` (R142). `count` starts at 0 in every run. -/
def run (maxSteps : Nat) (s : State) : Host.Outcome (Nat × State) Fault Refusal := runFrom 0 maxSteps s

/-- The image `b0, b1, ...` written to `(base + i) mod 256` in order; a later byte overwrites an earlier one (R44). -/
def State.loadImage (s : State) (base : Byte) : List Byte → State
  | [] => s
  | b :: rest => (s.memWrite base b).loadImage (base + 1) rest

end Sys2Proof.Machine
end

