-- ==== Sys2Proof/Machine/Session.lean ====
section
/-! DEFINITION. The host's side of the interface (`70_reset_and_hazards.md` R146, R147): its moves, when each is legal, and what
crosses outward. Signals, pins and clocks are no part of it (R146, decision D6). -/

namespace Sys2Proof.Machine

/-- What a run or step request delivers (R142, R143; log entry 13: DEDUCED, safe). -/
inductive Report where
  /-- a run that did not fault, with the number of steps executed -/
  | ok (count : Nat)
  /-- a `step` request that did not fault; its count is dropped (R143) -/
  | stepped
  /-- a run or step ended by InvalidOpcode, with the opcode byte and no count (R142, decision D4) -/
  | invalidOpcode (op : Byte)
  deriving DecidableEq, Repr

/-- The core as its host sees it between requests. -/
structure Session where
  core : State
  /-- a run or step has been requested since reset -/
  started : Bool
  /-- the result of the latest request since reset -/
  lastResult : Option Report
  /-- some request since reset ended in a fault: kept until reset (R126, decision D5; log entry 8: DESIGN CHOICE,
  safe) -/
  everFaulted : Bool
  deriving DecidableEq, Repr

/-- The host's moves, and it has no others (R146, R147). -/
inductive HostMove where
  | reset
  | load (addr data : Byte)
  | run (maxSteps : Nat)
  | step
  deriving DecidableEq, Repr

/-- Why a move is turned away. -/
inductive HostRefusal where
  /-- an image byte after the first run or step request since reset (R44, R141, R147; log entry 7: DESIGN CHOICE,
  safe) -/
  | loadAfterStart
  /-- the core refused an instruction; no instruction of this model does. Safe. -/
  | core (r : Refusal)
  deriving DecidableEq, Repr

/-- Right after reset: the zeroed machine, nothing requested (R140; log entry 10: DEDUCED, safe). -/
def Session.afterReset : Session where
  core := State.reset
  started := false
  lastResult := none
  everFaulted := false

/-- A run of the core, delivered as `report` of the count if it does not fault. A fault leaves the state it carries, and a later
run starts from that (R126). -/
def Session.request (p : Session) (maxSteps : Nat) (report : Nat → Report) : Except HostRefusal Session :=
  match run maxSteps p.core with
  | .next (count, t) => .ok { p with core := t, started := true, lastResult := some (report count) }
  | .fault (.invalidOpcode op t) =>
    .ok { core := t, started := true, lastResult := some (.invalidOpcode op), everFaulted := true }
  | .refused r => .error (.core r)

/-- One move of the host. Reset forgets everything, the image included (R140); an image byte is taken only before the first
request (R141); `step` is `run(1)` with the count dropped (R143). -/
def Session.move (p : Session) : HostMove → Except HostRefusal Session
  | .reset => .ok Session.afterReset
  | .load addr data =>
    if p.started then .error .loadAfterStart else .ok { p with core := p.core.memWrite addr data }
  | .run maxSteps => p.request maxSteps .ok
  | .step => p.request 1 (fun _ => .stepped)

/-- Moves in order, up to the first that is turned away. -/
def Session.moves (p : Session) : List HostMove → Except HostRefusal Session
  | [] => .ok p
  | m :: rest =>
    match p.move m with
    | .ok q => q.moves rest
    | .error r => .error r

/-- The loads that write an image from `base` on (R44, R146). -/
def imageMoves (base : Byte) : List Byte → List HostMove
  | [] => []
  | b :: rest => .load base b :: imageMoves (base + 1) rest

/-! ### Outputs (R146) -/

/-- `OUT[7:0]`, valid at all times. -/
def Session.out (p : Session) : Byte := p.core.out

/-- The halted bit. -/
def Session.halted (p : Session) : Bool := p.core.halted

/-- `steps_executed`: the count returned by a run that did not fault. -/
def Session.stepsExecuted (p : Session) : Option Nat :=
  match p.lastResult with
  | some (.ok count) => some count
  | some .stepped | some (.invalidOpcode _) | none => none

/-- `invalid_opcode` with `fault_op[7:0]`: the latest request ended by InvalidOpcode, with its opcode byte. -/
def Session.faultOp (p : Session) : Option Byte :=
  match p.lastResult with
  | some (.invalidOpcode op) => some op
  | some (.ok _) | some .stepped | none => none

end Sys2Proof.Machine
end

