-- ==== Sys2Proof/Safety.lean ====
section
/-! DEFINITION. What claims call a good state, a safe run and a finished one. -/

namespace Sys2Proof.Machine

/-- The invariant of the machine: memory is in its canonical form, and Zero and Negative never hold together (`10_state.md`
R16, with R23 for the reset state). -/
def State.inv (s : State) : Prop := s.mem.wf = true ∧ ¬(s.flags.z = true ∧ s.flags.n = true)

/-- The run of `maxSteps` from `s` ends without a fault (`70_reset_and_hazards.md` R144 (a) or (b)). -/
def RunSafe (maxSteps : Nat) (s : State) : Prop := ∃ count t, run maxSteps s = .next (count, t)

/-- The run finishes of its own accord, at a HLT (R144 (a)); a faulted run never counts as finished (R126, decision D5). -/
def RunFinishes (maxSteps : Nat) (s : State) : Prop :=
  ∃ count t, run maxSteps s = .next (count, t) ∧ t.halted = true

/-- The host may take the machine as having finished well: halted, and no run since reset has faulted (decision D5). -/
def Session.finishedWell (p : Session) : Prop := p.core.halted = true ∧ p.everFaulted = false

end Sys2Proof.Machine
end

