-- ==== Sys2Proof/Certificates/Slice0/Obligations.lean ====
section
/-! DEFINITION. The statements for the provers. `exec i s` runs `i` in the state after its bytes have been fetched, so the PC of
`s` is already past them (`40_control.md` R71); `step` does the fetching. Where a statement says "of opcode XX", the byte is
the one the spec's table gives. -/

open Sys2Proof Sys2Proof.Machine

/-! ### Reset and the invariant -/

/-- `10_state.md` R23. -/
def Obligations.ResetStateIsAllZero : Prop :=
  State.reset.a = 0 ∧ State.reset.b = 0 ∧ State.reset.out = 0 ∧ State.reset.pc = 0 ∧
  State.reset.flags.z = false ∧ State.reset.flags.c = false ∧ State.reset.flags.n = false ∧
  State.reset.halted = false ∧ (∀ addr, State.reset.memRead addr = 0) ∧
  State.reset.fetch.1 = State.reset.memRead 0

/-- The invariant holds at reset. The canonical form of memory is the model's own (log entry 3). -/
def Obligations.ResetMeetsMachineInvariant : Prop := State.reset.inv

/-- The invariant is kept by every step, and by the state a fault carries. Its canonical form of memory is the model's own (log
entry 3); that Zero and Negative are never set together is the consequence `10_state.md` R16 marks as derived. -/
def Obligations.StepKeepsMachineInvariant : Prop :=
  ∀ s : State, s.inv →
    (∀ t, step s = .next t → t.inv) ∧ (∀ op t, step s = .fault (.invalidOpcode op t) → t.inv)

/-! ### Memory and fetch -/

/-- `20_memory.md` R33: the byte at PC, PC one more modulo 256; the operand byte is the one after the opcode byte; nothing else
advances PC but a jump. -/
def Obligations.FetchReadsByteAndAdvancesPc : Prop :=
  (∀ s : State, s.fetch = (s.memRead s.pc, { s with pc := s.pc + 1 }) ∧
    s.fetch.2.pc.toNat = (s.pc.toNat + 1) % 256) ∧
  (∀ s : State, takesOperand (s.memRead s.pc) = true →
    s.fetchInstr = ([s.memRead s.pc, s.memRead (s.pc + 1)], { s with pc := s.pc + 2 })) ∧
  (∀ s : State, takesOperand (s.memRead s.pc) = false →
    s.fetchInstr = ([s.memRead s.pc], { s with pc := s.pc + 1 })) ∧
  (∀ i s t, exec i s = .next t → (∀ addr, i ≠ .jmp addr ∧ i ≠ .jz addr ∧ i ≠ .jc addr) → t.pc = s.pc)

/-- `20_memory.md` R32: a write changes its one cell and nothing else, and the next fetch or LDA of that cell gives the byte
written. -/
def Obligations.WriteChangesOneCellOnly : Prop :=
  ∀ (s : State) (addr v : Byte),
    (∀ x, (s.memWrite addr v).memRead x = if x = addr then v else s.memRead x) ∧
    s.memWrite addr v = { s with mem := (s.memWrite addr v).mem } ∧
    ({ s.memWrite addr v with pc := addr } : State).fetch.1 = v ∧
    (∃ t, exec (.lda addr) (s.memWrite addr v) = .next t ∧ t.a = v)

/-- The inference that `20_memory.md` R42 marks as derived: what a STA (opcode 04) stores is what the very next step fetches from there, as opcode or as operand; the
address stored to is the operand byte as it was before the store. -/
def Obligations.StoreIsSeenByNextFetch : Prop :=
  ∀ s : State, s.halted = false → s.memRead s.pc = 0x04#8 →
    ∃ t, step s = .next t ∧
      (∀ u : State, u.mem = t.mem → u.pc = s.memRead (s.pc + 1) → u.fetch.1 = s.a) ∧
      (∀ u : State, u.mem = t.mem → u.pc + 1 = s.memRead (s.pc + 1) → takesOperand (u.memRead u.pc) = true →
        u.fetchInstr.1 = [u.memRead u.pc, s.a])

/-- Two memories in canonical form that read alike at every address are the same list (log entry 3: the model's own form). -/
def Obligations.CanonicalMemoryIsUnique : Prop :=
  ∀ m m' : Memory, m.wf = true → m'.wf = true → (∀ addr : Byte, m.read addr = m'.read addr) → m = m'

/-! ### Encoding -/

/-- Decoding and encoding agree, in both directions, for every instruction and every operand byte. -/
def Obligations.DecodeAndEncodeAgree : Prop :=
  ∀ (i : Instr) (bytes rest : List Byte), i.wellFormed = true →
    (decode bytes = .ok (i, rest) ↔ bytes = encode i ++ rest)

/-- A byte sequence decodes to one instruction with nothing left over exactly if it is well formed by the ranges of
`30_encoding.md` R50 and R54. -/
def Obligations.DecoderAcceptsWellFormedBytesOnly : Prop :=
  ∀ bytes : List Byte, wellFormedBytes bytes = true ↔ ∃ i, decode bytes = .ok (i, [])

/-- `30_encoding.md` R54: the illegal opcode bytes are the 239 values 0x10 to 0xFE; that such a byte consumes itself alone is the
inference that R54 marks as derived. -/
def Obligations.IllegalBytesAreRejectedByName : Prop :=
  (∀ (op : Byte) (rest : List Byte),
    decode (op :: rest) = .error (.invalidOpcode op) ↔ 0x10 ≤ op.toNat ∧ op.toNat ≤ 0xFE) ∧
  (∀ s : State, 0x10 ≤ (s.memRead s.pc).toNat → (s.memRead s.pc).toNat ≤ 0xFE →
    s.fetchInstr = ([s.memRead s.pc], { s with pc := s.pc + 1 }))

/-- Words written out from the bytes of `30_encoding.md` R53 decode to what they stand for. How the two bytes of an F1 instruction
are numbered as one word, the opcode byte in bits 7 to 0 and the operand byte in bits 15 to 8, is the model's (log entry 12). -/
def Obligations.TableWordsDecodeRight : Prop :=
  decodeTableWord 8 0x00 = some .nop ∧ decodeTableWord 16 0x7F01 = some (.ldiA 0x7F) ∧
  decodeTableWord 16 0x8002 = some (.ldiB 0x80) ∧ decodeTableWord 16 0x2204 = some (.sta 0x22) ∧
  decodeTableWord 8 0x06 = some .subB ∧ decodeTableWord 16 0xFF0C = some (.jz 0xFF) ∧
  decodeTableWord 8 0x0F = some .output ∧ decodeTableWord 8 0xFF = some .hlt ∧
  decodeTableWord 8 0x10 = none ∧ decodeTableWord 8 0xFE = none

/-! ### The instruction cycle -/

/-- `40_control.md` R70: a core that is not halted runs the instruction its bytes decode to, with PC past those bytes. -/
def Obligations.StepRunsDecodedInstruction : Prop :=
  ∀ (s : State) (i : Instr) (rest : List Byte), i.wellFormed = true → s.halted = false →
    decode [s.memRead s.pc, s.memRead (s.pc + 1)] = .ok (i, rest) →
    step s = exec i { s with pc := s.pc + BitVec.ofNat 8 i.length }

/-- The instruction that a table word stands for is what the next step runs once the word is placed. The numbering of a word's
bytes (log entry 12) and the placing (log entry 6) are the model's. -/
def Obligations.PlacedWordIsRunByNextStep : Prop :=
  ∀ (s : State) (nbits w : Nat) (i : Instr), decodeTableWord nbits w = some i →
    step (s.withFetchWord nbits w) =
      exec i { s.withFetchWord nbits w with pc := s.pc + BitVec.ofNat 8 i.length }

/-- `10_state.md` R14: where PC stands after a step. The modulus 256 is the spec's decision D2 (log entry 4). -/
def Obligations.PcAfterEachStep : Prop :=
  ∀ (s t : State) (i : Instr) (rest : List Byte), s.halted = false →
    decode [s.memRead s.pc, s.memRead (s.pc + 1)] = .ok (i, rest) → step s = .next t →
    match i with
    | .jmp addr => t.pc = addr
    | .jz addr => if s.flags.z = true then t.pc = addr else t.pc.toNat = (s.pc.toNat + 2) % 256
    | .jc addr => if s.flags.c = true then t.pc = addr else t.pc.toNat = (s.pc.toNat + 2) % 256
    | .ldiA _ | .ldiB _ | .lda _ | .sta _ => t.pc.toNat = (s.pc.toNat + 2) % 256
    | .nop | .addB | .subB | .andB | .orB | .xorB | .notA | .input | .output | .hlt =>
      t.pc.toNat = (s.pc.toNat + 1) % 256

/-- `60_exceptions.md` R121: when a step faults, with which opcode byte, and in which state: PC alone has moved, by one. -/
def Obligations.StepFaultsOnIllegalOpcodeOnly : Prop :=
  ∀ (s : State) (f : Fault), step s = .fault f ↔
    s.halted = false ∧ 0x10 ≤ (s.memRead s.pc).toNat ∧ (s.memRead s.pc).toNat ≤ 0xFE ∧
      f = .invalidOpcode (s.memRead s.pc) { s with pc := s.pc + 1 }

/-- `60_exceptions.md` R122: every instruction completes in every state, and a step has no outcome but the next state and
InvalidOpcode. -/
def Obligations.EveryInstructionCompletes : Prop :=
  (∀ (i : Instr) (s : State), ∃ t, exec i s = .next t) ∧
  (∀ s : State, (∃ t, step s = .next t) ∨ (∃ op t, step s = .fault (.invalidOpcode op t)))

/-! ### The result of each instruction -/

/-- `40_control.md` R72, opcode 00. -/
def Obligations.NopChangesNothingButPc : Prop :=
  (∀ s : State, exec .nop s = .next s) ∧
  (∀ s : State, s.halted = false → s.memRead s.pc = 0x00#8 → step s = .next { s with pc := s.pc + 1 })

/-- `40_control.md` R73, opcode FF; the step counts in its run, and no run executes a step after it. -/
def Obligations.HltHaltsTheCore : Prop :=
  (∀ s : State, exec .hlt s = .next { s with halted := true }) ∧
  (∀ s : State, s.halted = false → s.memRead s.pc = 0xFF#8 →
    step s = .next { s with halted := true, pc := s.pc + 1 } ∧
    run 1 s = .next (1, { s with halted := true, pc := s.pc + 1 }) ∧
    ∀ n, run n { s with halted := true, pc := s.pc + 1 } = .next (0, { s with halted := true, pc := s.pc + 1 }))

/-- `41_load_store.md` R80, opcode 01. -/
def Obligations.LdiALoadsImmediate : Prop :=
  (∀ (imm : Byte) (s : State), exec (.ldiA imm) s =
    .next { s with a := imm, flags := { z := decide (imm = 0), c := false, n := imm[7] } }) ∧
  (∀ s : State, s.halted = false → s.memRead s.pc = 0x01#8 →
    step s = exec (.ldiA (s.memRead (s.pc + 1))) { s with pc := s.pc + 2 })

/-- `41_load_store.md` R81, opcode 02; it is the only instruction that writes B. -/
def Obligations.LdiBLoadsImmediate : Prop :=
  (∀ (imm : Byte) (s : State), exec (.ldiB imm) s =
    .next { s with b := imm, flags := { z := decide (imm = 0), c := false, n := imm[7] } }) ∧
  (∀ s : State, s.halted = false → s.memRead s.pc = 0x02#8 →
    step s = exec (.ldiB (s.memRead (s.pc + 1))) { s with pc := s.pc + 2 }) ∧
  (∀ i s t, exec i s = .next t → (∀ imm, i ≠ .ldiB imm) → t.b = s.b)

/-- `41_load_store.md` R82, opcode 03. -/
def Obligations.LdaLoadsMemoryByte : Prop :=
  (∀ (addr : Byte) (s : State), exec (.lda addr) s =
    .next { s with
      a := s.memRead addr
      flags := { z := decide (s.memRead addr = 0), c := false, n := (s.memRead addr)[7] } }) ∧
  (∀ s : State, s.halted = false → s.memRead s.pc = 0x03#8 →
    step s = exec (.lda (s.memRead (s.pc + 1))) { s with pc := s.pc + 2 })

/-- `41_load_store.md` R83, opcode 04: one cell, no flag and no register. -/
def Obligations.StaStoresAccumulator : Prop :=
  (∀ (addr : Byte) (s : State), ∃ t, exec (.sta addr) s = .next t ∧ t = { s with mem := t.mem } ∧
    ∀ x, t.memRead x = if x = addr then s.a else s.memRead x) ∧
  (∀ s : State, s.halted = false → s.memRead s.pc = 0x04#8 →
    step s = exec (.sta (s.memRead (s.pc + 1))) { s with pc := s.pc + 2 })

/-- `42_alu.md` R90, opcode 05: the integer sum, its low 8 bits and its bit 8. -/
def Obligations.AddSumsWithCarryOut : Prop :=
  (∀ s : State, ∃ t, exec .addB s = .next t ∧ t = { s with a := t.a, flags := t.flags } ∧
    t.a.toNat = (s.a.toNat + s.b.toNat) % 256 ∧ t.flags.c = decide (s.a.toNat + s.b.toNat ≥ 256) ∧
    t.flags.z = decide ((s.a.toNat + s.b.toNat) % 256 = 0) ∧ t.flags.n = t.a[7]) ∧
  (∀ s : State, s.halted = false → s.memRead s.pc = 0x05#8 → step s = exec .addB { s with pc := s.pc + 1 })

/-- `42_alu.md` R91, opcode 06: the integer difference modulo 512, its low 8 bits and its bit 8, which is the borrow. -/
def Obligations.SubDifferenceWithBorrow : Prop :=
  (∀ s : State, ∃ t, exec .subB s = .next t ∧ t = { s with a := t.a, flags := t.flags } ∧
    (t.a.toNat : Int) = ((s.a.toNat : Int) - s.b.toNat) % 512 % 256 ∧
    t.flags.c = decide (((s.a.toNat : Int) - s.b.toNat) % 512 ≥ 256) ∧
    t.flags.c = decide (s.a.toNat < s.b.toNat) ∧ t.flags.z = decide (t.a = 0) ∧
    t.flags.z = decide (s.a = s.b) ∧ t.flags.n = t.a[7]) ∧
  (∀ s : State, s.halted = false → s.memRead s.pc = 0x06#8 → step s = exec .subB { s with pc := s.pc + 1 })

/-- `42_alu.md` R92, opcode 07. -/
def Obligations.AndOfAccumulatorAndB : Prop :=
  (∀ s : State, exec .andB s =
    .next { s with a := s.a &&& s.b, flags := { z := decide (s.a &&& s.b = 0), c := false, n := (s.a &&& s.b)[7] } }) ∧
  (∀ s : State, s.halted = false → s.memRead s.pc = 0x07#8 → step s = exec .andB { s with pc := s.pc + 1 })

/-- `42_alu.md` R93, opcode 08. -/
def Obligations.OrOfAccumulatorAndB : Prop :=
  (∀ s : State, exec .orB s =
    .next { s with a := s.a ||| s.b, flags := { z := decide (s.a ||| s.b = 0), c := false, n := (s.a ||| s.b)[7] } }) ∧
  (∀ s : State, s.halted = false → s.memRead s.pc = 0x08#8 → step s = exec .orB { s with pc := s.pc + 1 })

/-- `42_alu.md` R94, opcode 09. -/
def Obligations.XorOfAccumulatorAndB : Prop :=
  (∀ s : State, exec .xorB s =
    .next { s with a := s.a ^^^ s.b, flags := { z := decide (s.a ^^^ s.b = 0), c := false, n := (s.a ^^^ s.b)[7] } }) ∧
  (∀ s : State, s.halted = false → s.memRead s.pc = 0x09#8 → step s = exec .xorB { s with pc := s.pc + 1 })

/-- `42_alu.md` R95, opcode 0A: the complement within 8 bits is 255 less A. -/
def Obligations.NotComplementsAccumulator : Prop :=
  (∀ s : State, exec .notA s =
    .next { s with a := 255 - s.a, flags := { z := decide (s.a = 0xFF#8), c := false, n := !s.a[7] } }) ∧
  (∀ s : State, s.halted = false → s.memRead s.pc = 0x0A#8 → step s = exec .notA { s with pc := s.pc + 1 })

/-- `43_jumps.md` R100, opcode 0B. -/
def Obligations.JmpGoesToOperand : Prop :=
  (∀ (addr : Byte) (s : State), exec (.jmp addr) s = .next { s with pc := addr }) ∧
  (∀ s : State, s.halted = false → s.memRead s.pc = 0x0B#8 →
    step s = .next { s with pc := s.memRead (s.pc + 1) })

/-- `43_jumps.md` R101, opcode 0C. -/
def Obligations.JzJumpsWhenZeroIsSet : Prop :=
  (∀ (addr : Byte) (s : State), exec (.jz addr) s =
    .next { s with pc := if s.flags.z = true then addr else s.pc }) ∧
  (∀ s : State, s.halted = false → s.memRead s.pc = 0x0C#8 →
    step s = .next { s with pc := if s.flags.z = true then s.memRead (s.pc + 1) else s.pc + 2 })

/-- `43_jumps.md` R102, opcode 0D; and Carry can become 1 only by an ADD that carried or a SUB that borrowed. -/
def Obligations.JcJumpsWhenCarryIsSet : Prop :=
  (∀ (addr : Byte) (s : State), exec (.jc addr) s =
    .next { s with pc := if s.flags.c = true then addr else s.pc }) ∧
  (∀ s : State, s.halted = false → s.memRead s.pc = 0x0D#8 →
    step s = .next { s with pc := if s.flags.c = true then s.memRead (s.pc + 1) else s.pc + 2 }) ∧
  (∀ i s t, exec i s = .next t → t.flags.c = true →
    (i = .addB ∧ s.a.toNat + s.b.toNat ≥ 256) ∨ (i = .subB ∧ s.a.toNat < s.b.toNat) ∨
    (s.flags.c = true ∧ (i = .nop ∨ (∃ x, i = .sta x) ∨ i = .output ∨ (∃ x, i = .jmp x) ∨ (∃ x, i = .jz x) ∨
      (∃ x, i = .jc x) ∨ i = .hlt)))

/-- `44_io.md` R110, opcode 0E: the constant 0, whatever the state. -/
def Obligations.InClearsAccumulator : Prop :=
  (∀ s : State, exec .input s = .next { s with a := 0, flags := { z := true, c := false, n := false } }) ∧
  (∀ s : State, s.halted = false → s.memRead s.pc = 0x0E#8 → step s = exec .input { s with pc := s.pc + 1 })

/-- `44_io.md` R111, opcode 0F; the latch keeps its value until the next OUT. -/
def Obligations.OutCopiesAccumulator : Prop :=
  (∀ s : State, exec .output s = .next { s with out := s.a }) ∧
  (∀ s : State, s.halted = false → s.memRead s.pc = 0x0F#8 →
    step s = .next { s with out := s.a, pc := s.pc + 1 }) ∧
  (∀ i s t, exec i s = .next t → i ≠ .output → t.out = s.out)

/-! ### Flags and arithmetic -/

/-- `10_state.md` R16. -/
def Obligations.FlagUnitWritesAllThree : Prop :=
  ∀ value carry : Nat,
    (flagsFrom value carry).z = decide (value &&& 0xFF = 0) ∧
    (flagsFrom value carry).n = (value &&& 0xFF).testBit 7 ∧
    (flagsFrom value carry).c = decide (carry &&& 1 = 1)

/-- `10_state.md` R17, the flag unit's arguments per instruction. -/
def Obligations.FlagsColumnOfEachInstruction : Prop :=
  ∀ (i : Instr) (s t : State), exec i s = .next t →
    match i with
    | .nop | .sta _ | .jmp _ | .jz _ | .jc _ | .output | .hlt => t.flags = s.flags
    | .ldiA imm | .ldiB imm => t.flags = flagsFrom imm.toNat 0
    | .lda _ | .andB | .orB | .xorB | .notA => t.flags = flagsFrom t.a.toNat 0
    | .addB => t.flags = flagsFrom ((s.a.toNat + s.b.toNat) % 256) ((s.a.toNat + s.b.toNat) / 256)
    | .subB => t.flags = flagsFrom ((512 + s.a.toNat - s.b.toNat) % 512 % 256)
        ((512 + s.a.toNat - s.b.toNat) % 512 / 256)
    | .input => t.flags = flagsFrom 0 0

/-- The closed forms of the six operations, which `42_alu.md` R96 derives from R90 to R95; no old flag is an operand. -/
def Obligations.ArithmeticWrapsModulo256 : Prop :=
  (∀ s t, exec .addB s = .next t → t.flags.c.toNat * 256 + t.a.toNat = s.a.toNat + s.b.toNat) ∧
  (∀ s t, exec .subB s = .next t →
    ((t.flags.c.toNat * 256 + t.a.toNat : Nat) : Int) = ((s.a.toNat : Int) - s.b.toNat) % 512 ∧
    t.flags.c = decide (s.a.toNat < s.b.toNat)) ∧
  (∀ s t, exec .andB s = .next t → t.flags.c = false ∧
    ∀ k, t.a.getLsbD k = (s.a.getLsbD k && s.b.getLsbD k)) ∧
  (∀ s t, exec .orB s = .next t → t.flags.c = false ∧
    ∀ k, t.a.getLsbD k = (s.a.getLsbD k || s.b.getLsbD k)) ∧
  (∀ s t, exec .xorB s = .next t → t.flags.c = false ∧
    ∀ k, t.a.getLsbD k = (s.a.getLsbD k ^^ s.b.getLsbD k)) ∧
  (∀ s t, exec .notA s = .next t → t.flags.c = false ∧ t.a.toNat = 255 - s.a.toNat) ∧
  (∀ i s t, i ∈ [Instr.addB, .subB, .andB, .orB, .xorB, .notA] → exec i s = .next t →
    t.flags.z = decide (t.a.toNat = 0) ∧ t.flags.n = decide (t.a.toNat ≥ 128) ∧
    ∀ g : Flags, exec i { s with flags := g } = .next t)

/-! ### What each instruction leaves alone -/

/-- The instructions whose destination is A (`10_state.md` R11): A and the flags may change, nothing else does. -/
def Obligations.FrameOfAccumulatorInstructions : Prop :=
  ∀ (i : Instr) (s t : State),
    ((∃ imm, i = .ldiA imm) ∨ (∃ addr, i = .lda addr) ∨
      i ∈ [Instr.addB, .subB, .andB, .orB, .xorB, .notA, .input]) →
    exec i s = .next t →
    t.b = s.b ∧ t.out = s.out ∧ t.pc = s.pc ∧ t.halted = s.halted ∧ ∀ x, t.memRead x = s.memRead x

/-- LDI B: B and the flags may change, nothing else does (`41_load_store.md` R81). -/
def Obligations.FrameOfLdiB : Prop :=
  ∀ (imm : Byte) (s t : State), exec (.ldiB imm) s = .next t →
    t.a = s.a ∧ t.out = s.out ∧ t.pc = s.pc ∧ t.halted = s.halted ∧ ∀ x, t.memRead x = s.memRead x

/-- STA: no register, no flag, and every byte outside the one byte stored to reads as before (`41_load_store.md` R83). The address
is the one the meaning computes, `effectiveAddress`, and the store is one byte wide (`20_memory.md` R36). -/
def Obligations.FrameOfStore : Prop :=
  ∀ (operand : Byte) (s t : State), exec (.sta operand) s = .next t →
    t.a = s.a ∧ t.b = s.b ∧ t.out = s.out ∧ t.pc = s.pc ∧ t.flags = s.flags ∧ t.halted = s.halted ∧
    ∀ stored, effectiveAddress operand = stored → ∀ x, x ≠ stored → t.memRead x = s.memRead x

/-- JMP, JZ and JC: PC may change, nothing else does (`43_jumps.md`). -/
def Obligations.FrameOfJumps : Prop :=
  ∀ (i : Instr) (s t : State) (addr : Byte), (i = .jmp addr ∨ i = .jz addr ∨ i = .jc addr) → exec i s = .next t →
    t.a = s.a ∧ t.b = s.b ∧ t.out = s.out ∧ t.flags = s.flags ∧ t.halted = s.halted ∧
    ∀ x, t.memRead x = s.memRead x

/-- NOP changes nothing, OUT the latch alone, HLT the halted bit alone. -/
def Obligations.FrameOfNopOutHlt : Prop :=
  ∀ (i : Instr) (s t : State), (i = .nop ∨ i = .output ∨ i = .hlt) → exec i s = .next t →
    t.a = s.a ∧ t.b = s.b ∧ t.pc = s.pc ∧ t.flags = s.flags ∧ (∀ x, t.memRead x = s.memRead x) ∧
    (i ≠ .output → t.out = s.out) ∧ (i ≠ .hlt → t.halted = s.halted)

/-- The "written by" column of `10_state.md` R10: an element of the state that a step changes was changed by one of its
writers. -/
def Obligations.EachElementHasOnlyItsWriters : Prop :=
  ∀ (i : Instr) (s t : State), exec i s = .next t →
    (t.b ≠ s.b → ∃ imm, i = .ldiB imm) ∧
    (t.out ≠ s.out → i = .output) ∧
    (t.halted ≠ s.halted → i = .hlt ∧ t.halted = true) ∧
    (∀ x, t.memRead x ≠ s.memRead x → i = .sta x) ∧
    (t.a ≠ s.a → (∃ imm, i = .ldiA imm) ∨ (∃ addr, i = .lda addr) ∨
      i ∈ [Instr.addB, .subB, .andB, .orB, .xorB, .notA, .input]) ∧
    (t.flags ≠ s.flags → (∃ imm, i = .ldiA imm ∨ i = .ldiB imm) ∨ (∃ addr, i = .lda addr) ∨
      i ∈ [Instr.addB, .subB, .andB, .orB, .xorB, .notA, .input]) ∧
    (t.pc ≠ s.pc → i = .jmp t.pc ∨ (i = .jz t.pc ∧ s.flags.z = true) ∨ (i = .jc t.pc ∧ s.flags.c = true))

/-- `10_state.md` R18: false after reset, set by HLT alone, never cleared, and no step is performed while it is true. That a step
requested on a halted core leaves the state as it is, is the spec's decision D3 (log entry 1). -/
def Obligations.HaltedIsMonotone : Prop :=
  State.reset.halted = false ∧
  (∀ i s t, exec i s = .next t → t.halted = (s.halted || decide (i = .hlt))) ∧
  (∀ s : State, s.halted = true → step s = .next s ∧ ∀ n, run n s = .next (0, s)) ∧
  (∀ n s count t, run n s = .next (count, t) → s.halted = true → t.halted = true)

/-! ### The run loop -/

/-- `70_reset_and_hazards.md` R142, the loop, turn by turn; that a fault delivers no count is the spec's decision D4. -/
def Obligations.RunFollowsTheLoop : Prop :=
  (∀ s, run 0 s = .next (0, s)) ∧
  (∀ n s, s.halted = true → run n s = .next (0, s)) ∧
  (∀ n s t, s.halted = false → step s = .next t →
    (∀ count u, run n t = .next (count, u) → run (n + 1) s = .next (count + 1, u)) ∧
    (∀ f, run n t = .fault f → run (n + 1) s = .fault f)) ∧
  (∀ n s f, s.halted = false → step s = .fault f → run (n + 1) s = .fault f)

/-- A further run continues as if the two runs had been one: the inference that R142 marks as derived. -/
def Obligations.RunsCompose : Prop :=
  ∀ (m n : Nat) (s : State),
    (∀ count t, run m s = .next (count, t) →
      (∀ count' u, run n t = .next (count', u) → run (m + n) s = .next (count + count', u)) ∧
      (∀ f, run n t = .fault f → run (m + n) s = .fault f)) ∧
    (∀ f, run m s = .fault f → run (m + n) s = .fault f)

/-- A run ends halted, with its budget used up, or at a fault, and in which state: the inference that
`70_reset_and_hazards.md` R144 marks as derived. A run that is not started halted and ends halted has PC one past a HLT byte;
at a fault PC is one past the offending byte. -/
def Obligations.RunEndsInOneOfThreeWays : Prop :=
  ∀ (n : Nat) (s : State),
    (∃ count t, run n s = .next (count, t) ∧ count ≤ n ∧ (t.halted = false → count = n) ∧
      (s.halted = false → t.halted = true → 0 < count ∧ t.memRead (t.pc - 1) = 0xFF#8)) ∨
    (∃ op t, run n s = .fault (.invalidOpcode op t) ∧ t.halted = false ∧ op = t.memRead (t.pc - 1) ∧
      0x10 ≤ op.toNat ∧ op.toNat ≤ 0xFE)

/-- A run that finished finishes alike under any larger budget (R142). -/
def Obligations.LargerBudgetFinishesAlike : Prop :=
  (∀ (n m : Nat) (s t : State) (count : Nat), run n s = .next (count, t) → t.halted = true →
    run (n + m) s = .next (count, t)) ∧
  (∀ (n m : Nat) (s : State), RunFinishes n s → RunFinishes (n + m) s ∧ RunSafe (n + m) s)

/-- Running through cells that hold 0 executes NOPs, wraps at the top of memory, and never faults: the inference that
`10_state.md` R24 marks as derived. -/
def Obligations.UnprogrammedMemoryRunsNops : Prop :=
  ∀ (n : Nat) (s : State), s.halted = false → (∀ k, k < n → s.memRead (s.pc + BitVec.ofNat 8 k) = 0) →
    run n s = .next (n, { s with pc := s.pc + BitVec.ofNat 8 n })

/-- `70_reset_and_hazards.md` R143: a step request is a run of one, with the count dropped. That it executes nothing on a halted
core is the spec's decision D3 (log entry 1). -/
def Obligations.StepRequestIsRunOfOne : Prop :=
  (∀ s : State, s.halted = true → step s = .next s ∧ run 1 s = .next (0, s)) ∧
  (∀ s t, s.halted = false → step s = .next t → run 1 s = .next (1, t)) ∧
  (∀ s f, step s = .fault f → run 1 s = .fault f) ∧
  (∀ (p q : Session), p.move .step = .ok q → ∃ q', p.move (.run 1) = .ok q' ∧ q'.core = q.core ∧
    q'.started = q.started ∧ q'.everFaulted = q.everFaulted ∧ q'.faultOp = q.faultOp ∧ q.stepsExecuted = none)

/-! ### The host -/

/-- The spec's decision D10 in `20_memory.md` R44: image byte `i` goes to `(base + i) mod 256`, the last write to a cell wins, every other cell and every
register is left alone. -/
def Obligations.ImageLoadPlacesEachByte : Prop :=
  ∀ (s : State) (base : Byte) (image : List Byte),
    (∀ (k : Nat) (hk : k < image.length), (∀ j, k < j → j < image.length → (j - k) % 256 ≠ 0) →
      (s.loadImage base image).memRead (base + BitVec.ofNat 8 k) = image[k]) ∧
    (∀ x, (∀ k, k < image.length → x ≠ base + BitVec.ofNat 8 k) → (s.loadImage base image).memRead x = s.memRead x) ∧
    s.loadImage base image = { s with mem := (s.loadImage base image).mem }

/-- `70_reset_and_hazards.md` R141: reset, then the image, then runs; every run after reset starts from the reset state plus the
image. That a request with budget 0 already ends the time for loading is the model's choice (log entry 7). -/
def Obligations.ImageIsLoadedBeforeFirstRequest : Prop :=
  (∀ (base : Byte) (image : List Byte), Session.afterReset.moves (imageMoves base image) =
    .ok { Session.afterReset with core := State.reset.loadImage base image }) ∧
  (∀ (p : Session) (addr data : Byte), p.started = true → p.move (.load addr data) = .error .loadAfterStart) ∧
  (∀ (p : Session) (m : HostMove), m ≠ .reset → (∀ addr data, m ≠ .load addr data) →
    ∃ q, p.move m = .ok q ∧ q.started = true)

/-- `70_reset_and_hazards.md` R140, R147: the host itself writes no register. A load changes its one cell; a run request, and a
step request as a run of one, changes the core exactly as `run` does, whether it faults or not; on a halted core no move but
reset changes a register or clears `halted`; reset gives the reset state. This rests on the spec's decisions D3 (log entry 1),
D8 and D4 (log entry 13), and on the fault carrying the state after it (log entry 2). -/
def Obligations.HostWritesNoRegister : Prop :=
  (∀ (p q : Session) (addr data : Byte), p.move (.load addr data) = .ok q →
    q.core = { p.core with mem := q.core.mem } ∧ ∀ x, q.core.memRead x = if x = addr then data else p.core.memRead x) ∧
  (∀ (p q : Session) (m : HostMove) (n : Nat), (m = .run n ∨ (m = .step ∧ n = 1)) → p.move m = .ok q →
    (∃ count, run n p.core = .next (count, q.core)) ∨ (∃ op, run n p.core = .fault (.invalidOpcode op q.core))) ∧
  (∀ (p q : Session) (m : HostMove), m ≠ .reset → p.move m = .ok q → p.core.halted = true →
    q.core = { p.core with mem := q.core.mem }) ∧
  (∀ p : Session, p.move .reset = .ok Session.afterReset)

/-- `70_reset_and_hazards.md` R142, R143, R146: what a request that does not fault leaves and delivers. A run leaves the state and
delivers the count that `run` answers; a step is a run of one with the count dropped (log entry 13); neither reports a fault,
and neither forgets an earlier one (log entry 8). -/
def Obligations.RequestDeliversWhatRunAnswers : Prop :=
  (∀ (p : Session) (n count : Nat) (t : State), run n p.core = .next (count, t) →
    ∃ q, p.move (.run n) = .ok q ∧ q.core = t ∧ q.stepsExecuted = some count ∧ q.faultOp = none ∧
      q.everFaulted = p.everFaulted ∧ q.started = true ∧ q.out = t.out ∧ q.halted = t.halted) ∧
  (∀ (p : Session) (count : Nat) (t : State), run 1 p.core = .next (count, t) →
    ∃ q, p.move .step = .ok q ∧ q.core = t ∧ q.stepsExecuted = none ∧ q.faultOp = none ∧
      q.everFaulted = p.everFaulted ∧ q.started = true ∧ q.out = t.out ∧ q.halted = t.halted)

/-- Decision D5 of `92_eei_decisions.md` (log entry 8): a fault is kept until reset, and a machine that faulted never counts as
finished well. -/
def Obligations.FaultIsRememberedUntilReset : Prop :=
  (∀ (p q : Session) (m : HostMove), m ≠ .reset → p.move m = .ok q → p.everFaulted = true → q.everFaulted = true) ∧
  (∀ (p : Session) (n : Nat) (op : Byte) (t : State), run n p.core = .fault (.invalidOpcode op t) →
    ∃ q, p.move (.run n) = .ok q ∧ q.core = t ∧ q.everFaulted = true ∧ q.faultOp = some op ∧
      q.stepsExecuted = none ∧ ¬q.finishedWell)

/-- Whatever the host does, the machine meets its invariant. The canonical form of memory, half of the invariant, is the model's
own (log entry 3). -/
def Obligations.EveryHostMoveKeepsInvariant : Prop :=
  (∀ (p q : Session) (ms : List HostMove), p.core.inv → p.moves ms = .ok q → q.core.inv) ∧
  (∀ (q : Session) (ms : List HostMove), Session.afterReset.moves ms = .ok q → q.core.inv)

/-! ### The accesses of a step (log entry 9: the list is the model's own view) -/

/-- The accesses of each instruction, in order: the inference that `20_memory.md` R36 marks as derived. -/
def Obligations.AccessesOfEachInstruction : Prop :=
  (∀ (s : State) (i : Instr) (rest : List Byte), s.halted = false →
    decode [s.memRead s.pc, s.memRead (s.pc + 1)] = .ok (i, rest) →
    match i with
    | .ldiA _ | .ldiB _ | .jmp _ | .jz _ | .jc _ => stepAccesses s = [.read s.pc, .read (s.pc + 1)]
    | .lda addr => stepAccesses s = [.read s.pc, .read (s.pc + 1), .read addr]
    | .sta addr => stepAccesses s = [.read s.pc, .read (s.pc + 1), .write addr s.a]
    | .nop | .addB | .subB | .andB | .orB | .xorB | .notA | .input | .output | .hlt =>
      stepAccesses s = [.read s.pc]) ∧
  (∀ (s : State) (f : Fault), step s = .fault f → stepAccesses s = [.read s.pc])

/-- The writes in the list are all that a step does to memory. -/
def Obligations.StepWritesItsAccessesOnly : Prop :=
  ∀ s : State,
    (∀ t, step s = .next t → t.mem = s.mem.after (stepAccesses s)) ∧
    (∀ op t, step s = .fault (.invalidOpcode op t) → t.mem = s.mem.after (stepAccesses s))

/-- The reads in the list are all that a step learns from memory: two states that agree on every register and on those cells take
the same step, but for memory. -/
def Obligations.StepDependsOnCellsItReadsOnly : Prop :=
  ∀ s s' : State, s' = { s with mem := s'.mem } →
    (∀ x, Access.read x ∈ stepAccesses s → s'.memRead x = s.memRead x) →
    stepAccesses s' = stepAccesses s ∧
    (∀ t, step s = .next t → ∃ t', step s' = .next t' ∧ t' = { t with mem := t'.mem }) ∧
    (∀ op t, step s = .fault (.invalidOpcode op t) →
      ∃ t', step s' = .fault (.invalidOpcode op t') ∧ t' = { t with mem := t'.mem })
end

