-- ==== Sys2Proof/Laws/Decode.lean ====
section
/-! SUPPORT. What the decoder does with each kind of opcode byte, said once. -/

namespace Sys2Proof

theorem decode_of_f0 {op : Byte} {i : Instr} (h : select op = .f0 i) (rest : List Byte) :
    decode (op :: rest) = .ok (i, rest) := by
  simp [decode, h]

theorem decode_of_f1 {op : Byte} {withOperand : Byte → Instr} (h : select op = .f1 withOperand) (x : Byte)
    (rest : List Byte) : decode (op :: x :: rest) = .ok (withOperand x, rest) := by
  simp [decode, h]

theorem decode_of_illegal {op : Byte} (h : select op = .illegal) (rest : List Byte) :
    decode (op :: rest) = .error (.invalidOpcode op) := by
  simp [decode, h]

theorem operandBytes_of_f0 {op : Byte} {i : Instr} (h : select op = .f0 i) : operandBytes op = 0 := by
  simp [operandBytes, h]

theorem operandBytes_of_f1 {op : Byte} {withOperand : Byte → Instr} (h : select op = .f1 withOperand) :
    operandBytes op = 1 := by
  simp [operandBytes, h]

theorem operandBytes_of_illegal {op : Byte} (h : select op = .illegal) : operandBytes op = 0 := by
  simp [operandBytes, h]

/-- What a one-byte selection can be (`30_encoding.md` R50). -/
theorem select_f0_cases {op : Byte} {i : Instr} (h : select op = .f0 i) : encode i = [op] := by
  unfold select at h
  split at h <;> first | (cases h; rfl) | cases h

/-- What a two-byte selection can be (R50). -/
theorem select_f1_cases {op : Byte} {withOperand : Byte → Instr} (h : select op = .f1 withOperand) (x : Byte) :
    encode (withOperand x) = [op, x] := by
  unfold select at h
  split at h <;> first | (cases h; rfl) | cases h

/-- An opcode byte selects nothing exactly if it is one of 0x10 to 0xFE (R54). -/
theorem select_illegal_iff (op : Byte) : select op = .illegal ↔ legalOpcode op = false := by
  have table : ∀ op : Byte, (match select op with | .illegal => true | .f0 _ => false | .f1 _ => false) = !legalOpcode op := by
    decide
  have h := table op
  cases hs : select op <;> simp_all

end Sys2Proof
end

