-- ==== Sys2Proof/Laws/State.lean ====
section
/-! SUPPORT. One lemma per field and update of `State`, so that no proof unfolds a record update. -/

namespace Sys2Proof.Machine.State

variable (s : State)

@[simp] theorem memWrite_a (addr v : Byte) : (s.memWrite addr v).a = s.a := rfl
@[simp] theorem memWrite_b (addr v : Byte) : (s.memWrite addr v).b = s.b := rfl
@[simp] theorem memWrite_out (addr v : Byte) : (s.memWrite addr v).out = s.out := rfl
@[simp] theorem memWrite_pc (addr v : Byte) : (s.memWrite addr v).pc = s.pc := rfl
@[simp] theorem memWrite_flags (addr v : Byte) : (s.memWrite addr v).flags = s.flags := rfl
@[simp] theorem memWrite_halted (addr v : Byte) : (s.memWrite addr v).halted = s.halted := rfl
@[simp] theorem memWrite_mem (addr v : Byte) : (s.memWrite addr v).mem = s.mem.write addr v := rfl

@[simp] theorem setAWithFlags_a (v : Byte) (c : Nat) : (s.setAWithFlags v c).a = v := rfl
@[simp] theorem setAWithFlags_b (v : Byte) (c : Nat) : (s.setAWithFlags v c).b = s.b := rfl
@[simp] theorem setAWithFlags_out (v : Byte) (c : Nat) : (s.setAWithFlags v c).out = s.out := rfl
@[simp] theorem setAWithFlags_pc (v : Byte) (c : Nat) : (s.setAWithFlags v c).pc = s.pc := rfl
@[simp] theorem setAWithFlags_flags (v : Byte) (c : Nat) : (s.setAWithFlags v c).flags = flagsFrom v.toNat c := rfl
@[simp] theorem setAWithFlags_halted (v : Byte) (c : Nat) : (s.setAWithFlags v c).halted = s.halted := rfl
@[simp] theorem setAWithFlags_mem (v : Byte) (c : Nat) : (s.setAWithFlags v c).mem = s.mem := rfl

@[simp] theorem setBWithFlags_a (v : Byte) (c : Nat) : (s.setBWithFlags v c).a = s.a := rfl
@[simp] theorem setBWithFlags_b (v : Byte) (c : Nat) : (s.setBWithFlags v c).b = v := rfl
@[simp] theorem setBWithFlags_out (v : Byte) (c : Nat) : (s.setBWithFlags v c).out = s.out := rfl
@[simp] theorem setBWithFlags_pc (v : Byte) (c : Nat) : (s.setBWithFlags v c).pc = s.pc := rfl
@[simp] theorem setBWithFlags_flags (v : Byte) (c : Nat) : (s.setBWithFlags v c).flags = flagsFrom v.toNat c := rfl
@[simp] theorem setBWithFlags_halted (v : Byte) (c : Nat) : (s.setBWithFlags v c).halted = s.halted := rfl
@[simp] theorem setBWithFlags_mem (v : Byte) (c : Nat) : (s.setBWithFlags v c).mem = s.mem := rfl

@[simp] theorem jumpTo_a (t : Byte) : (s.jumpTo t).a = s.a := rfl
@[simp] theorem jumpTo_b (t : Byte) : (s.jumpTo t).b = s.b := rfl
@[simp] theorem jumpTo_out (t : Byte) : (s.jumpTo t).out = s.out := rfl
@[simp] theorem jumpTo_pc (t : Byte) : (s.jumpTo t).pc = t := rfl
@[simp] theorem jumpTo_flags (t : Byte) : (s.jumpTo t).flags = s.flags := rfl
@[simp] theorem jumpTo_halted (t : Byte) : (s.jumpTo t).halted = s.halted := rfl
@[simp] theorem jumpTo_mem (t : Byte) : (s.jumpTo t).mem = s.mem := rfl

@[simp] theorem fetch_fst : s.fetch.1 = s.memRead s.pc := rfl
@[simp] theorem fetch_a : s.fetch.2.a = s.a := rfl
@[simp] theorem fetch_b : s.fetch.2.b = s.b := rfl
@[simp] theorem fetch_out : s.fetch.2.out = s.out := rfl
@[simp] theorem fetch_pc : s.fetch.2.pc = s.pc + 1 := rfl
@[simp] theorem fetch_flags : s.fetch.2.flags = s.flags := rfl
@[simp] theorem fetch_halted : s.fetch.2.halted = s.halted := rfl
@[simp] theorem fetch_mem : s.fetch.2.mem = s.mem := rfl

/-- A read sees the memory alone. -/
theorem memRead_eq_of_mem {s t : State} (h : s.mem = t.mem) (addr : Byte) : s.memRead addr = t.memRead addr := by
  simp [memRead, h]

end Sys2Proof.Machine.State
end

