-- ==== Sys2Proof/Laws/Flags.lean ====
section
/-! SUPPORT. The flag unit bit by bit (`10_state.md` R16), and the 9-bit results of ADD and SUB as integers. -/

namespace Sys2Proof.Machine

@[simp] theorem flagsFrom_z (v : Byte) (c : Nat) : (flagsFrom v.toNat c).z = (v == 0) := by
  simp [flagsFrom]

@[simp] theorem flagsFrom_n (v : Byte) (c : Nat) : (flagsFrom v.toNat c).n = v[7] := by
  simp [flagsFrom]

@[simp] theorem flagsFrom_c_zero (v : Nat) : (flagsFrom v 0).c = false := rfl

@[simp] theorem flagsFrom_c_toNat (v : Nat) (b : Bool) : (flagsFrom v b.toNat).c = b := by
  cases b <;> rfl

/-- Bit 7 of a byte says that it is 128 or more. -/
theorem bit7_eq_decide (v : Byte) : v[7] = decide (128 ≤ v.toNat) := by
  revert v
  decide

theorem sum9_toNat (x y : Byte) : (sum9 x y).toNat = x.toNat + y.toNat := by
  have := x.isLt
  have := y.isLt
  simp only [sum9, BitVec.toNat_add, BitVec.toNat_setWidth]
  omega

theorem difference9_toNat (x y : Byte) : (difference9 x y).toNat = (512 + x.toNat - y.toNat) % 512 := by
  have := x.isLt
  have := y.isLt
  simp only [difference9, BitVec.toNat_sub, BitVec.toNat_setWidth]
  omega

/-- Bit 8 of a 9-bit value says that it is 256 or more. -/
theorem bit8_eq_decide (r : Nine) : r[8] = decide (256 ≤ r.toNat) := by
  have h : r[8] = r.msb := (BitVec.msb_eq_getMsbD_zero r).symm ▸ by simp [BitVec.getMsbD]
  rw [h, BitVec.msb_eq_decide]

end Sys2Proof.Machine
end

