-- ==== Sys2Proof/Laws/Memory.lean ====
section
/-! SUPPORT. The memory array: what a write does to every read, and that it keeps the canonical form. -/

namespace Sys2Proof.Machine.Memory

/-- No cell of an erased list has the erased address. -/
theorem address_ne_of_mem_erase {m : Memory} {k : Nat} {cell : Host.Cell} (h : cell ∈ m.erase k) : cell.1 ≠ k := by
  induction m with
  | nil => simp [erase] at h
  | cons head rest ih =>
    rw [erase] at h
    split at h
    · exact ih h
    · rcases List.mem_cons.mp h with rfl | h
      · assumption
      · exact ih h

theorem lookup_erase (m : Memory) (k j : Nat) :
    (m.erase k).lookup j = if j = k then unlisted else m.lookup j := by
  induction m with
  | nil => simp [erase, lookup]
  | cons head rest ih =>
    obtain ⟨i, v⟩ := head
    by_cases hik : i = k <;> by_cases hij : i = j <;> by_cases hjk : j = k <;>
      simp_all [erase, lookup]

theorem lookup_place {m : Memory} {k : Nat} (v : Byte) (j : Nat) (absent : ∀ cell ∈ m, cell.1 ≠ k) :
    (m.place k v).lookup j = if j = k then v else m.lookup j := by
  induction m with
  | nil => simp [place, lookup, eq_comm]
  | cons head rest ih =>
    obtain ⟨i, w⟩ := head
    have hik : i ≠ k := absent (i, w) (by simp)
    have ih := ih fun cell h => absent cell (List.mem_cons_of_mem _ h)
    rw [place]
    split
    · simp only [lookup, eq_comm (a := k)]
    · by_cases hij : i = j
      · simp [lookup, hij, hij ▸ hik]
      · simp [lookup, hij, ih]

/-- Reading after writing (`20_memory.md` R31, R32): the byte written at that address, every other byte as before. -/
theorem read_write (m : Memory) (addr v x : Byte) :
    (m.write addr v).read x = if x = addr then v else m.read x := by
  have hx : x.toNat = addr.toNat ↔ x = addr := BitVec.toNat_inj
  unfold write read
  split
  · simp_all [lookup_erase]
  · rw [lookup_place v _ fun _ => address_ne_of_mem_erase, lookup_erase]
    simp only [hx]
    split <;> rfl

@[simp] theorem read_write_same (m : Memory) (addr v : Byte) : (m.write addr v).read addr = v := by
  simp [read_write]

theorem read_write_other (m : Memory) {addr x : Byte} (v : Byte) (h : x ≠ addr) :
    (m.write addr v).read x = m.read x := by
  simp [read_write, h]

@[simp] theorem read_nil (x : Byte) : Memory.read [] x = 0 := rfl

/-! ### The canonical form -/

theorem wfFrom_cons (low k : Nat) (v : Byte) (m : Memory) :
    wfFrom low ((k, v) :: m) = true ↔ low ≤ k ∧ k < Config.memSize ∧ v ≠ unlisted ∧ wfFrom (k + 1) m = true := by
  simp [wfFrom, and_assoc]

theorem wfFrom_mono {low low' : Nat} (hle : low' ≤ low) {m : Memory} (h : wfFrom low m = true) :
    wfFrom low' m = true := by
  cases m with
  | nil => rfl
  | cons head rest =>
    rw [wfFrom_cons] at h ⊢
    exact ⟨by omega, h.2⟩

theorem wfFrom_erase {low k : Nat} {m : Memory} (h : wfFrom low m = true) : wfFrom low (m.erase k) = true := by
  induction m generalizing low with
  | nil => rfl
  | cons head rest ih =>
    obtain ⟨i, v⟩ := head
    rw [wfFrom_cons] at h
    rw [erase]
    split
    · exact wfFrom_mono (by omega) (ih h.2.2.2)
    · exact (wfFrom_cons ..).mpr ⟨h.1, h.2.1, h.2.2.1, ih h.2.2.2⟩

theorem wfFrom_place {low k : Nat} {v : Byte} {m : Memory} (h : wfFrom low m = true) (hlow : low ≤ k)
    (hk : k < Config.memSize) (hv : v ≠ unlisted) (absent : ∀ cell ∈ m, cell.1 ≠ k) :
    wfFrom low (m.place k v) = true := by
  induction m generalizing low with
  | nil => exact (wfFrom_cons ..).mpr ⟨hlow, hk, hv, rfl⟩
  | cons head rest ih =>
    obtain ⟨i, w⟩ := head
    have hik : i ≠ k := absent (i, w) (by simp)
    have hrest := (wfFrom_cons ..).mp h
    rw [place]
    split
    · exact (wfFrom_cons ..).mpr ⟨hlow, hk, hv, (wfFrom_cons ..).mpr ⟨by omega, hrest.2⟩⟩
    · exact (wfFrom_cons ..).mpr ⟨hrest.1, hrest.2.1, hrest.2.2.1,
        ih hrest.2.2.2 (by omega) fun cell hc => absent cell (List.mem_cons_of_mem _ hc)⟩

/-- A write keeps the canonical form. -/
theorem wf_write {m : Memory} (h : m.wf = true) (addr v : Byte) : (m.write addr v).wf = true := by
  unfold write
  split
  · exact wfFrom_erase h
  · exact wfFrom_place (wfFrom_erase h) (Nat.zero_le _) addr.isLt ‹_› fun _ => address_ne_of_mem_erase

end Sys2Proof.Machine.Memory

namespace Sys2Proof.Machine.State

@[simp] theorem memRead_memWrite (s : State) (addr v x : Byte) :
    (s.memWrite addr v).memRead x = if x = addr then v else s.memRead x :=
  Memory.read_write s.mem addr v x

end Sys2Proof.Machine.State
end

