-- ==== Sys2Proof/Laws/Exec.lean ====
section
/-! SUPPORT. One lemma per meaning: the next state in terms of the shared operations. -/

namespace Sys2Proof.Machine

variable (s : State) (x : Byte)

@[simp] theorem exec_nop : exec .nop s = .next s := rfl
@[simp] theorem exec_ldiA : exec (.ldiA x) s = .next (s.setAWithFlags x 0) := rfl
@[simp] theorem exec_ldiB : exec (.ldiB x) s = .next (s.setBWithFlags x 0) := rfl
@[simp] theorem exec_lda : exec (.lda x) s = .next (s.setAWithFlags (s.memRead x) 0) := rfl
@[simp] theorem exec_sta : exec (.sta x) s = .next (s.memWrite x s.a) := rfl
@[simp] theorem exec_addB : exec .addB s = .next (s.setAFromNine (sum9 s.a s.b)) := rfl
@[simp] theorem exec_subB : exec .subB s = .next (s.setAFromNine (difference9 s.a s.b)) := rfl
@[simp] theorem exec_andB : exec .andB s = .next (s.setAWithFlags (s.a &&& s.b) 0) := rfl
@[simp] theorem exec_orB : exec .orB s = .next (s.setAWithFlags (s.a ||| s.b) 0) := rfl
@[simp] theorem exec_xorB : exec .xorB s = .next (s.setAWithFlags (s.a ^^^ s.b) 0) := rfl
@[simp] theorem exec_notA : exec .notA s = .next (s.setAWithFlags (~~~s.a) 0) := rfl
@[simp] theorem exec_jmp : exec (.jmp x) s = .next (s.jumpTo x) := rfl
@[simp] theorem exec_jz : exec (.jz x) s = .next (s.jumpIf s.flags.z x) := rfl
@[simp] theorem exec_jc : exec (.jc x) s = .next (s.jumpIf s.flags.c x) := rfl
@[simp] theorem exec_input : exec .input s = .next (s.setAWithFlags 0 0) := rfl
@[simp] theorem exec_output : exec .output s = .next { s with out := s.a } := rfl
@[simp] theorem exec_hlt : exec .hlt s = .next { s with halted := true } := rfl

namespace State

/-- What a conditional transfer can do. -/
theorem jumpIf_eq (condition : Bool) (target : Byte) :
    s.jumpIf condition target = { s with pc := if condition then target else s.pc } := by
  cases condition <;> rfl

@[simp] theorem jumpIf_a (q : Bool) (t : Byte) : (s.jumpIf q t).a = s.a := by rw [jumpIf_eq]
@[simp] theorem jumpIf_b (q : Bool) (t : Byte) : (s.jumpIf q t).b = s.b := by rw [jumpIf_eq]
@[simp] theorem jumpIf_out (q : Bool) (t : Byte) : (s.jumpIf q t).out = s.out := by rw [jumpIf_eq]
@[simp] theorem jumpIf_pc (q : Bool) (t : Byte) : (s.jumpIf q t).pc = if q then t else s.pc := by rw [jumpIf_eq]
@[simp] theorem jumpIf_flags (q : Bool) (t : Byte) : (s.jumpIf q t).flags = s.flags := by rw [jumpIf_eq]
@[simp] theorem jumpIf_halted (q : Bool) (t : Byte) : (s.jumpIf q t).halted = s.halted := by rw [jumpIf_eq]
@[simp] theorem jumpIf_mem (q : Bool) (t : Byte) : (s.jumpIf q t).mem = s.mem := by rw [jumpIf_eq]

@[simp] theorem setAFromNine_a (r : Nine) : (s.setAFromNine r).a = r.setWidth 8 := rfl
@[simp] theorem setAFromNine_b (r : Nine) : (s.setAFromNine r).b = s.b := rfl
@[simp] theorem setAFromNine_out (r : Nine) : (s.setAFromNine r).out = s.out := rfl
@[simp] theorem setAFromNine_pc (r : Nine) : (s.setAFromNine r).pc = s.pc := rfl
@[simp] theorem setAFromNine_flags (r : Nine) :
    (s.setAFromNine r).flags = flagsFrom (r.setWidth 8 : Byte).toNat r[8].toNat := rfl
@[simp] theorem setAFromNine_halted (r : Nine) : (s.setAFromNine r).halted = s.halted := rfl
@[simp] theorem setAFromNine_mem (r : Nine) : (s.setAFromNine r).mem = s.mem := rfl

end State

end Sys2Proof.Machine
end

