-- ==== Sys2Proof/Laws/Step.lean ====
section
/-! SUPPORT. What fetching an instruction gives, and everything a step can do. -/

namespace Sys2Proof.Machine

namespace State

/-- The fetch of a one-byte instruction or of an illegal opcode byte (`20_memory.md` R33). -/
theorem fetchInstr_one {s : State} (h : operandBytes (s.memRead s.pc) = 0) :
    s.fetchInstr = ([s.memRead s.pc], { s with pc := s.pc + 1 }) := by
  simp [fetchInstr, h, fetchBytes, fetch]

/-- The fetch of a two-byte instruction: the operand byte is the one after the opcode byte, modulo 256 (R33). -/
theorem fetchInstr_two {s : State} (h : operandBytes (s.memRead s.pc) = 1) :
    s.fetchInstr = ([s.memRead s.pc, s.memRead (s.pc + 1)], { s with pc := s.pc + 2 }) := by
  have hpc : s.pc + 1 + 1 = s.pc + 2 := by rw [BitVec.add_assoc]; rfl
  simp only [fetchInstr, fetch_fst, h, fetchBytes]
  simp only [fetch, memRead, hpc]

end State

theorem step_of_halted {s : State} (h : s.halted = true) : step s = .next s := by
  simp [step, stepOrHold, h]

theorem step_of_f0 {s : State} {i : Instr} (hrun : s.halted = false) (hop : select (s.memRead s.pc) = .f0 i) :
    step s = exec i { s with pc := s.pc + 1 } := by
  simp [step, stepOrHold, hrun, cycle, State.fetchInstr_one (operandBytes_of_f0 hop), decode_of_f0 hop]

theorem step_of_f1 {s : State} {withOperand : Byte → Instr} (hrun : s.halted = false)
    (hop : select (s.memRead s.pc) = .f1 withOperand) :
    step s = exec (withOperand (s.memRead (s.pc + 1))) { s with pc := s.pc + 2 } := by
  simp [step, stepOrHold, hrun, cycle, State.fetchInstr_two (operandBytes_of_f1 hop), decode_of_f1 hop]

theorem step_of_illegal {s : State} (hrun : s.halted = false) (hop : select (s.memRead s.pc) = .illegal) :
    step s = raiseInvalidOpcode (s.memRead s.pc) { s with pc := s.pc + 1 } := by
  simp [step, stepOrHold, hrun, cycle, State.fetchInstr_one (operandBytes_of_illegal hop), decode_of_illegal hop]

/-- Everything a step can do (`40_control.md` R70, `70_reset_and_hazards.md` R143). -/
theorem step_cases (s : State) :
    (s.halted = true ∧ step s = .next s) ∨
    (s.halted = false ∧ ∃ i, select (s.memRead s.pc) = .f0 i ∧ step s = exec i { s with pc := s.pc + 1 }) ∨
    (s.halted = false ∧ ∃ withOperand, select (s.memRead s.pc) = .f1 withOperand ∧
      step s = exec (withOperand (s.memRead (s.pc + 1))) { s with pc := s.pc + 2 }) ∨
    (s.halted = false ∧ select (s.memRead s.pc) = .illegal ∧
      step s = raiseInvalidOpcode (s.memRead s.pc) { s with pc := s.pc + 1 }) := by
  by_cases hrun : s.halted = true
  · exact .inl ⟨hrun, step_of_halted hrun⟩
  · have hrun : s.halted = false := by simpa using hrun
    cases hop : select (s.memRead s.pc) with
    | f0 i => exact .inr (.inl ⟨hrun, i, rfl, step_of_f0 hrun hop⟩)
    | f1 withOperand => exact .inr (.inr (.inl ⟨hrun, withOperand, rfl, step_of_f1 hrun hop⟩))
    | illegal => exact .inr (.inr (.inr ⟨hrun, rfl, step_of_illegal hrun hop⟩))

end Sys2Proof.Machine
end

