-- ==== Sys2Proof/Laws/Access.lean ====
section
/-! SUPPORT. The list of accesses of a step, one lemma per kind of opcode byte (`20_memory.md` R36). -/

namespace Sys2Proof.Machine

theorem stepAccesses_of_halted {s : State} (h : s.halted = true) : stepAccesses s = [] := by
  simp [stepAccesses, h]

theorem stepAccesses_of_f0 {s : State} {i : Instr} (hrun : s.halted = false)
    (hop : select (s.memRead s.pc) = .f0 i) :
    stepAccesses s = .read s.pc :: dataAccesses i { s with pc := s.pc + 1 } := by
  simp [stepAccesses, hrun, State.fetchInstr_one (operandBytes_of_f0 hop), decode_of_f0 hop, readsFrom]

theorem stepAccesses_of_f1 {s : State} {withOperand : Byte → Instr} (hrun : s.halted = false)
    (hop : select (s.memRead s.pc) = .f1 withOperand) :
    stepAccesses s = .read s.pc :: .read (s.pc + 1) ::
      dataAccesses (withOperand (s.memRead (s.pc + 1))) { s with pc := s.pc + 2 } := by
  simp [stepAccesses, hrun, State.fetchInstr_two (operandBytes_of_f1 hop), decode_of_f1 hop, readsFrom]

theorem stepAccesses_of_illegal {s : State} (hrun : s.halted = false) (hop : select (s.memRead s.pc) = .illegal) :
    stepAccesses s = [.read s.pc] := by
  simp [stepAccesses, hrun, State.fetchInstr_one (operandBytes_of_illegal hop), decode_of_illegal hop, readsFrom]

@[simp] theorem Memory.after_nil (m : Memory) : m.after [] = m := rfl

@[simp] theorem Memory.after_read (m : Memory) (addr : Byte) (rest : List Access) :
    m.after (.read addr :: rest) = m.after rest := rfl

@[simp] theorem Memory.after_write (m : Memory) (addr v : Byte) (rest : List Access) :
    m.after (.write addr v :: rest) = (m.write addr v).after rest := rfl

end Sys2Proof.Machine
end

