-- ==== Sys2Proof/Laws/PerInstr.lean ====
section
/-! SUPPORT. The family EncodingShape: every instruction's bytes are exactly one well-formed instruction, of the length the table
gives. The check of the bytes (`WellFormed.lean`) and the encoder (`Decode.lean`) are two readings of `30_encoding.md`. -/

namespace Sys2Proof.Laws.EncodingShape

def Statement (i : Instr) : Prop := wellFormedBytes (encode i) = true ∧ (encode i).length = i.length

theorem nop : Statement .nop := ⟨rfl, rfl⟩
theorem ldiA (imm : Byte) : Statement (.ldiA imm) := ⟨rfl, rfl⟩
theorem ldiB (imm : Byte) : Statement (.ldiB imm) := ⟨rfl, rfl⟩
theorem lda (addr : Byte) : Statement (.lda addr) := ⟨rfl, rfl⟩
theorem sta (addr : Byte) : Statement (.sta addr) := ⟨rfl, rfl⟩
theorem addB : Statement .addB := ⟨rfl, rfl⟩
theorem subB : Statement .subB := ⟨rfl, rfl⟩
theorem andB : Statement .andB := ⟨rfl, rfl⟩
theorem orB : Statement .orB := ⟨rfl, rfl⟩
theorem xorB : Statement .xorB := ⟨rfl, rfl⟩
theorem notA : Statement .notA := ⟨rfl, rfl⟩
theorem jmp (addr : Byte) : Statement (.jmp addr) := ⟨rfl, rfl⟩
theorem jz (addr : Byte) : Statement (.jz addr) := ⟨rfl, rfl⟩
theorem jc (addr : Byte) : Statement (.jc addr) := ⟨rfl, rfl⟩
theorem input : Statement .input := ⟨rfl, rfl⟩
theorem output : Statement .output := ⟨rfl, rfl⟩
theorem hlt : Statement .hlt := ⟨rfl, rfl⟩

end Sys2Proof.Laws.EncodingShape
end

