-- ==== Sys2Proof/Laws/Run.lean ====
section
/-! SUPPORT. The equations of the run loop (`70_reset_and_hazards.md` R142) and of the host's moves. -/

namespace Sys2Proof.Machine

@[simp] theorem runFrom_zero (count : Nat) (s : State) : runFrom count 0 s = .next (count, s) := rfl

theorem runFrom_of_halted {s : State} (h : s.halted = true) (count budget : Nat) :
    runFrom count budget s = .next (count, s) := by
  cases budget <;> simp [runFrom, h]

theorem runFrom_of_next {s t : State} (hrun : s.halted = false) (h : step s = .next t) (count budget : Nat) :
    runFrom count (budget + 1) s = runFrom (count + 1) budget t := by
  simp [runFrom, hrun, h]

theorem runFrom_of_fault {s : State} {f : Fault} (hrun : s.halted = false) (h : step s = .fault f)
    (count budget : Nat) : runFrom count (budget + 1) s = .fault f := by
  simp [runFrom, hrun, h]

theorem runFrom_of_refused {s : State} {r : Refusal} (hrun : s.halted = false) (h : step s = .refused r)
    (count budget : Nat) : runFrom count (budget + 1) s = .refused r := by
  simp [runFrom, hrun, h]

@[simp] theorem loadImage_nil (s : State) (base : Byte) : s.loadImage base [] = s := rfl

@[simp] theorem loadImage_cons (s : State) (base b : Byte) (rest : List Byte) :
    s.loadImage base (b :: rest) = (s.memWrite base b).loadImage (base + 1) rest := rfl

namespace Session

variable (p : Session)

@[simp] theorem move_reset : p.move .reset = .ok afterReset := rfl

theorem move_load_before {p : Session} (h : p.started = false) (addr data : Byte) :
    p.move (.load addr data) = .ok { p with core := p.core.memWrite addr data } := by
  simp [move, h]

theorem move_load_after {p : Session} (h : p.started = true) (addr data : Byte) :
    p.move (.load addr data) = .error .loadAfterStart := by
  simp [move, h]

theorem request_of_next {p : Session} {n count : Nat} {t : State} (h : run n p.core = .next (count, t))
    (report : Nat → Report) :
    p.request n report = .ok { p with core := t, started := true, lastResult := some (report count) } := by
  simp [request, h]

theorem request_of_fault {p : Session} {n : Nat} {op : Byte} {t : State}
    (h : run n p.core = .fault (.invalidOpcode op t)) (report : Nat → Report) :
    p.request n report =
      .ok { core := t, started := true, lastResult := some (.invalidOpcode op), everFaulted := true } := by
  simp [request, h]

end Session

end Sys2Proof.Machine
end

