-- ==== Sys2Proof/Tests/Slice0.lean ====
section
/-! SUPPORT. The model's own tests. Expected values come from the spec: `95_test_vectors.md` unless a comment says otherwise.
The witnesses show, for each statement with hypotheses, that a concrete state meets them. -/

namespace Sys2Proof.Tests

open Sys2Proof Sys2Proof.Machine

/-- Cells placed in a memory. -/
def place (s : State) : List (Byte × Byte) → State
  | [] => s
  | (addr, v) :: rest => place (s.memWrite addr v) rest

/-- The state written `A B OUT PC Z C N h` in `95_test_vectors.md`, with some cells. -/
def st (a b out pc : Byte) (z c n h : Bool) (cells : List (Byte × Byte)) : State :=
  place { a := a, b := b, out := out, pc := pc, flags := { z := z, c := c, n := n }, halted := h, mem := [] } cells

/-- What `A B OUT PC Z C N h` lists. -/
structure Regs where
  a : Byte
  b : Byte
  out : Byte
  pc : Byte
  z : Bool
  c : Bool
  n : Bool
  h : Bool
  deriving DecidableEq, Repr

/-- `A B OUT PC Z C N h` of a state. -/
def regs (s : State) : Regs :=
  ⟨s.a, s.b, s.out, s.pc, s.flags.z, s.flags.c, s.flags.n, s.halted⟩

/-- The next state of a result, if it has one. -/
def nextOf : StepResult → Option State
  | .next t => some t
  | .fault _ | .refused _ => none

/-- The opcode byte and the registers that a fault carries. -/
def faultOf : StepResult → Option (Byte × Regs)
  | .fault (.invalidOpcode op t) => some (op, regs t)
  | .next _ | .refused _ => none

/-- The registers after one step. -/
def after (s : State) : Option Regs := (nextOf (step s)).map regs

/-- One cell after one step. -/
def cellAfter (s : State) (addr : Byte) : Option Byte := (nextOf (step s)).map fun t => t.memRead addr

/-! ### The check of byte sequences, an ill-formed term for each part of it -/

theorem test_illegal_opcode_refused : wellFormedBytes [0x10] = false ∧ wellFormedBytes [0xFE] = false := by decide
theorem test_missing_operand_refused : wellFormedBytes [0x0B] = false := by decide
theorem test_surplus_operand_refused : wellFormedBytes [0x00, 0x00] = false := by decide
theorem test_no_bytes_refused : wellFormedBytes [] = false := by decide
theorem test_two_byte_instruction_accepted : wellFormedBytes [0x0B, 0xFF] = true := by decide
theorem test_every_instruction_well_formed (imm : Byte) : (Instr.ldiA imm).wellFormed = true := rfl

/-! ### Decoding: words written out from the opcode table, bit by bit -/

theorem test_decode_nop : decode [0b00000000] = .ok (.nop, []) := by rfl
theorem test_decode_ldiA : decode [0b00000001, 0x7F] = .ok (.ldiA 0x7F, []) := by rfl
theorem test_decode_ldiB : decode [0b00000010, 0x80] = .ok (.ldiB 0x80, []) := by rfl
theorem test_decode_lda : decode [0b00000011, 0x20] = .ok (.lda 0x20, []) := by rfl
theorem test_decode_sta : decode [0b00000100, 0x22] = .ok (.sta 0x22, []) := by rfl
theorem test_decode_addB : decode [0b00000101] = .ok (.addB, []) := by rfl
theorem test_decode_subB : decode [0b00000110] = .ok (.subB, []) := by rfl
theorem test_decode_andB : decode [0b00000111] = .ok (.andB, []) := by rfl
theorem test_decode_orB : decode [0b00001000] = .ok (.orB, []) := by rfl
theorem test_decode_xorB : decode [0b00001001] = .ok (.xorB, []) := by rfl
theorem test_decode_notA : decode [0b00001010] = .ok (.notA, []) := by rfl
theorem test_decode_jmp : decode [0b00001011, 0x03] = .ok (.jmp 0x03, []) := by rfl
theorem test_decode_jz : decode [0b00001100, 0x0A] = .ok (.jz 0x0A, []) := by rfl
theorem test_decode_jc : decode [0b00001101, 0x40] = .ok (.jc 0x40, []) := by rfl
theorem test_decode_input : decode [0b00001110] = .ok (.input, []) := by rfl
theorem test_decode_output : decode [0b00001111] = .ok (.output, []) := by rfl
theorem test_decode_hlt : decode [0b11111111] = .ok (.hlt, []) := by rfl
theorem test_decode_illegal_neighbours :
    decode [0x10] = .error (.invalidOpcode 0x10) ∧ decode [0xFE] = .error (.invalidOpcode 0xFE) := ⟨rfl, rfl⟩
theorem test_decode_missing_operand : decode [0x0B] = .error (.missingOperand 0x0B) := by rfl
theorem test_decode_leaves_rest : decode [0x0F, 0x05, 0x0F] = .ok (.output, [0x05, 0x0F]) := by rfl

/-! ### One step of each instruction -/

theorem test_nop_at_top_cell :
    after (st 0x55 0 0 0xFF false false false false [(0xFF, 0x00)]) =
      some ⟨0x55, 0, 0, 0x00, false, false, false, false⟩ := by decide
theorem test_hlt :
    after (st 0 0 0 0x0B false false false false [(0x0B, 0xFF)]) = some ⟨0, 0, 0, 0x0C, false, false, false, true⟩ := by
  decide
theorem test_ldiA_negative :
    after (st 0x11 0x22 0 0x10 false true false false [(0x10, 0x01), (0x11, 0x80)]) =
      some ⟨0x80, 0x22, 0, 0x12, false, false, true, false⟩ := by decide
theorem test_ldiA_opcode_at_top_cell :
    after (st 0 0 0 0xFF false false false false [(0xFF, 0x01), (0x00, 0x0B)]) =
      some ⟨0x0B, 0, 0, 0x01, false, false, false, false⟩ := by decide
theorem test_ldiB_zero :
    after (st 0x11 0x22 0 0x10 false true false false [(0x10, 0x02), (0x11, 0x00)]) =
      some ⟨0x11, 0x00, 0, 0x12, true, false, false, false⟩ := by decide
theorem test_lda_negative_byte :
    after (st 0x01 0 0 0x10 false true false false [(0x10, 0x03), (0x11, 0x20), (0x20, 0xF0)]) =
      some ⟨0xF0, 0, 0, 0x12, false, false, true, false⟩ := by decide
theorem test_lda_own_operand :
    after (st 0x01 0 0 0x10 false false false false [(0x10, 0x03), (0x11, 0x11)]) =
      some ⟨0x11, 0, 0, 0x12, false, false, false, false⟩ := by decide
theorem test_sta_keeps_flags :
    after (st 0x10 0 0 0x10 true true false false [(0x10, 0x04), (0x11, 0x22)]) =
      some ⟨0x10, 0, 0, 0x12, true, true, false, false⟩ ∧
    cellAfter (st 0x10 0 0 0x10 true true false false [(0x10, 0x04), (0x11, 0x22)]) 0x22 = some 0x10 := by decide
theorem test_sta_onto_own_operand :
    cellAfter (st 0x99 0 0 0x10 false false false false [(0x10, 0x04), (0x11, 0x11)]) 0x11 = some 0x99 ∧
    cellAfter (st 0x99 0 0 0x10 false false false false [(0x10, 0x04), (0x11, 0x11)]) 0x10 = some 0x04 := by decide
theorem test_addB_carry :
    after (st 0xFA 0x0A 0 0x10 true true false false [(0x10, 0x05)]) =
      some ⟨0x04, 0x0A, 0, 0x11, false, true, false, false⟩ := by decide
theorem test_addB_zero_and_carry :
    after (st 0x80 0x80 0 0x10 true true false false [(0x10, 0x05)]) =
      some ⟨0x00, 0x80, 0, 0x11, true, true, false, false⟩ := by decide
theorem test_subB_borrow :
    after (st 0x05 0x0A 0 0x10 true false false false [(0x10, 0x06)]) =
      some ⟨0xFB, 0x0A, 0, 0x11, false, true, true, false⟩ := by decide
theorem test_subB_low_result_with_borrow :
    after (st 0x00 0xFF 0 0x10 true false false false [(0x10, 0x06)]) =
      some ⟨0x01, 0xFF, 0, 0x11, false, true, false, false⟩ := by decide
theorem test_andB :
    after (st 0xF0 0x3C 0 0x10 true true false false [(0x10, 0x07)]) =
      some ⟨0x30, 0x3C, 0, 0x11, false, false, false, false⟩ := by decide
theorem test_orB :
    after (st 0xF0 0x3C 0 0x10 true true false false [(0x10, 0x08)]) =
      some ⟨0xFC, 0x3C, 0, 0x11, false, false, true, false⟩ := by decide
theorem test_xorB :
    after (st 0x5A 0xFF 0 0x10 true true false false [(0x10, 0x09)]) =
      some ⟨0xA5, 0xFF, 0, 0x11, false, false, true, false⟩ := by decide
theorem test_notA :
    after (st 0x80 0x33 0 0x10 true true false false [(0x10, 0x0A)]) =
      some ⟨0x7F, 0x33, 0, 0x11, false, false, false, false⟩ := by decide
theorem test_jmp_opcode_at_top_cell :
    after (st 0 0 0 0xFF false false false false [(0xFF, 0x0B), (0x00, 0x42)]) =
      some ⟨0, 0, 0, 0x42, false, false, false, false⟩ := by decide
theorem test_jz_taken :
    after (st 0 0 0 0x05 true false false false [(0x05, 0x0C), (0x06, 0x0A)]) =
      some ⟨0, 0, 0, 0x0A, true, false, false, false⟩ := by decide
theorem test_jz_not_taken_at_top :
    after (st 0 0 0 0xFE false false false false [(0xFE, 0x0C), (0xFF, 0x33)]) =
      some ⟨0, 0, 0, 0x00, false, false, false, false⟩ := by decide
theorem test_jc_taken :
    after (st 0 0 0 0x10 false true false false [(0x10, 0x0D), (0x11, 0x40)]) =
      some ⟨0, 0, 0, 0x40, false, true, false, false⟩ := by decide
theorem test_jc_not_taken :
    after (st 0 0 0 0x10 true false false false [(0x10, 0x0D), (0x11, 0x40)]) =
      some ⟨0, 0, 0, 0x12, true, false, false, false⟩ := by decide
theorem test_input :
    after (st 0x9C 0 0 0x10 false true true false [(0x10, 0x0E)]) =
      some ⟨0x00, 0, 0, 0x11, true, false, false, false⟩ := by decide
theorem test_output :
    after (st 0x28 0 0x27 0x10 true true false false [(0x10, 0x0F)]) =
      some ⟨0x28, 0, 0x28, 0x11, true, true, false, false⟩ := by decide

/-! ### The fault, the halted core, the flag unit, the host -/

theorem test_illegal_opcode_faults :
    faultOf (step (st 0x7F 0x01 0x02 0x10 true true false false [(0x10, 0x10)])) =
      some (0x10, ⟨0x7F, 0x01, 0x02, 0x11, true, true, false, false⟩) := by decide
theorem test_illegal_opcode_at_top_cell :
    faultOf (step (st 0x01 0 0 0xFF false false false false [(0xFF, 0x10)])) =
      some (0x10, ⟨0x01, 0, 0, 0x00, false, false, false, false⟩) := by decide
theorem test_halted_core_holds :
    after (st 0 0 0 0x10 false false false true [(0x10, 0x0E)]) = some ⟨0, 0, 0, 0x10, false, false, false, true⟩ := by
  decide
theorem test_flag_unit_masks : flagsFrom 0x100 0 = { z := true, c := false, n := false } := by decide
theorem test_flag_unit_negative_carry : flagsFrom 0xFF 1 = { z := false, c := true, n := true } := by decide
theorem test_placed_word_runs :
    after (State.reset.withFetchWord 16 0x7F01) = some ⟨0x7F, 0, 0, 0x02, false, false, false, false⟩ := by decide
theorem test_table_word_drops_bits_above_nbits : decodeTableWord 8 0x7F01 = some (.ldiA 0) := by decide
/-- `70_reset_and_hazards.md` R142: a zero budget executes nothing. -/
theorem test_zero_budget : run 0 State.reset = .next (0, State.reset) := by rfl
/-- `20_memory.md` R44: an image wraps at the top of memory. -/
theorem test_image_wraps :
    (State.reset.loadImage 0xFF [0x01, 0x0B]).memRead 0xFF = 0x01 ∧
    (State.reset.loadImage 0xFF [0x01, 0x0B]).memRead 0x00 = 0x0B := by decide
/-- `20_memory.md` R44: writing back the reset value leaves no entry, so equal memories are equal lists. -/
theorem test_memory_stays_canonical :
    ((State.reset.memWrite 5 7).memWrite 5 0) = State.reset := by decide

/-! ### Witnesses -/

/-- A core that is not halted, at PC = 0xFF, with `op` there and 0x80 in the next cell, 0x00. -/
def about (op : Byte) : State := st 0x80 0x80 0x01 0xFF false false false false [(0xFF, op), (0x00, 0x80)]

theorem witness_ResetMeetsMachineInvariant : State.reset.mem.wf = true ∧ State.reset.flags.z = false := by decide
theorem witness_StepKeepsMachineInvariant : (about 0x05).mem.wf = true ∧ (about 0x05).flags.z = false ∧
    (nextOf (step (about 0x05))).isSome = true := by decide
theorem witness_StepKeepsMachineInvariant_fault : (about 0x10).mem.wf = true ∧ (about 0x10).flags.z = false ∧
    (faultOf (step (about 0x10))).isSome = true := by decide
theorem witness_FetchReadsByteAndAdvancesPc :
    takesOperand ((about 0x0D).memRead (about 0x0D).pc) = true ∧
    takesOperand ((about 0x0E).memRead (about 0x0E).pc) = false := by decide
theorem witness_FetchReadsByteAndAdvancesPc_exec : exec .nop (about 0x00) = .next (about 0x00) ∧
    (∀ addr, Instr.nop ≠ .jmp addr ∧ Instr.nop ≠ .jz addr ∧ Instr.nop ≠ .jc addr) := ⟨rfl, by simp⟩
theorem witness_StoreIsSeenByNextFetch : (about 0x04).halted = false ∧ (about 0x04).memRead (about 0x04).pc = 0x04#8 := by
  decide
/-- The address stored to is 0x80: one state has its PC there, the other has an opcode that takes an operand just below. -/
theorem witness_StoreIsSeenByNextFetch_after :
    (about 0x04).memRead ((about 0x04).pc + 1) = 0x80#8 ∧ (0x7F#8 : Byte) + 1 = 0x80#8 ∧
    takesOperand ((place (about 0x04) [(0x7F, 0x02)]).memRead 0x7F) = true := by decide
theorem witness_CanonicalMemoryIsUnique : (about 0x04).mem.wf = true ∧ (about 0x04).mem ≠ [] := by decide
theorem witness_DecodeAndEncodeAgree : (Instr.sta 0xFF).wellFormed = true ∧
    decode [0x04, 0xFF, 0x00] = .ok (.sta 0xFF, [0x00]) := ⟨rfl, rfl⟩
theorem witness_DecoderAcceptsWellFormedBytesOnly : wellFormedBytes [0x0F] = true ∧ wellFormedBytes [0xFF] = true := by
  decide
theorem witness_IllegalBytesAreRejectedByName : 0x10 ≤ ((about 0x10).memRead (about 0x10).pc).toNat ∧
    ((about 0xFE).memRead (about 0xFE).pc).toNat ≤ 0xFE := by decide
theorem witness_StepRunsDecodedInstruction : (about 0x0B).halted = false ∧
    decode [(about 0x0B).memRead (about 0x0B).pc, (about 0x0B).memRead ((about 0x0B).pc + 1)] = .ok (.jmp 0x80, []) :=
  ⟨rfl, rfl⟩
theorem witness_PlacedWordIsRunByNextStep : decodeTableWord 16 0x800C = some (.jz 0x80) := by decide
/-- One instruction for each clause: jumps taken and not taken, two bytes, one byte. -/
theorem witness_PcAfterEachStep :
    after (about 0x0B) = some ⟨0x80, 0x80, 0x01, 0x80, false, false, false, false⟩ ∧
    after { about 0x0C with flags := { z := true, c := false, n := false } } =
      some ⟨0x80, 0x80, 0x01, 0x80, true, false, false, false⟩ ∧
    after (about 0x0C) = some ⟨0x80, 0x80, 0x01, 0x01, false, false, false, false⟩ ∧
    after { about 0x0D with flags := { z := false, c := true, n := false } } =
      some ⟨0x80, 0x80, 0x01, 0x80, false, true, false, false⟩ ∧
    after (about 0x0D) = some ⟨0x80, 0x80, 0x01, 0x01, false, false, false, false⟩ ∧
    after (about 0x01) = some ⟨0x80, 0x80, 0x01, 0x01, false, false, true, false⟩ ∧
    after (about 0x0F) = some ⟨0x80, 0x80, 0x80, 0x00, false, false, false, false⟩ := by decide
theorem witness_StepFaultsOnIllegalOpcodeOnly :
    (faultOf (step (about 0x10))).map (fun r => r.1) = some 0x10 ∧
    (faultOf (step (about 0xFE))).map (fun r => r.1) = some 0xFE ∧
    (nextOf (step (about 0x0F))).isSome = true ∧ (nextOf (step (about 0xFF))).isSome = true := by decide
theorem witness_NopChangesNothingButPc : (about 0x00).halted = false ∧ (about 0x00).memRead (about 0x00).pc = 0x00#8 := by
  decide
theorem witness_HltHaltsTheCore : (about 0xFF).halted = false ∧ (about 0xFF).memRead (about 0xFF).pc = 0xFF#8 := by decide
theorem witness_LdiALoadsImmediate : (about 0x01).halted = false ∧ (about 0x01).memRead (about 0x01).pc = 0x01#8 := by
  decide
theorem witness_LdiBLoadsImmediate : (about 0x02).halted = false ∧ (about 0x02).memRead (about 0x02).pc = 0x02#8 := by
  decide
theorem witness_LdaLoadsMemoryByte : (about 0x03).halted = false ∧ (about 0x03).memRead (about 0x03).pc = 0x03#8 := by
  decide
theorem witness_StaStoresAccumulator : (about 0x04).halted = false ∧ (about 0x04).memRead (about 0x04).pc = 0x04#8 := by
  decide
theorem witness_AddSumsWithCarryOut : (about 0x05).halted = false ∧ (about 0x05).memRead (about 0x05).pc = 0x05#8 := by
  decide
theorem witness_SubDifferenceWithBorrow : (about 0x06).halted = false ∧ (about 0x06).memRead (about 0x06).pc = 0x06#8 := by
  decide
theorem witness_AndOfAccumulatorAndB : (about 0x07).halted = false ∧ (about 0x07).memRead (about 0x07).pc = 0x07#8 := by
  decide
theorem witness_OrOfAccumulatorAndB : (about 0x08).halted = false ∧ (about 0x08).memRead (about 0x08).pc = 0x08#8 := by
  decide
theorem witness_XorOfAccumulatorAndB : (about 0x09).halted = false ∧ (about 0x09).memRead (about 0x09).pc = 0x09#8 := by
  decide
theorem witness_NotComplementsAccumulator : (about 0x0A).halted = false ∧ (about 0x0A).memRead (about 0x0A).pc = 0x0A#8 := by
  decide
theorem witness_JmpGoesToOperand : (about 0x0B).halted = false ∧ (about 0x0B).memRead (about 0x0B).pc = 0x0B#8 := by decide
theorem witness_JzJumpsWhenZeroIsSet : (about 0x0C).halted = false ∧ (about 0x0C).memRead (about 0x0C).pc = 0x0C#8 := by
  decide
theorem witness_JcJumpsWhenCarryIsSet : (about 0x0D).halted = false ∧ (about 0x0D).memRead (about 0x0D).pc = 0x0D#8 := by
  decide
/-- Carry set by an ADD at its least carrying sum 256, by a SUB that borrows, and kept by an OUT. -/
theorem witness_JcJumpsWhenCarryIsSet_writers :
    (nextOf (exec .addB (about 0x05))).map (fun t => t.flags.c) = some true ∧
    (nextOf (exec .subB { about 0x06 with a := 0x7F })).map (fun t => t.flags.c) = some true ∧
    (nextOf (exec .output { about 0x0F with flags := { z := false, c := true, n := false } })).map
      (fun t => t.flags.c) = some true := by decide
/-- Instructions that are not LDI B, and not OUT. -/
theorem witness_LdiBLoadsImmediate_OutCopiesAccumulator_others :
    exec .nop (about 0x00) = .next (about 0x00) ∧ (∀ imm, Instr.nop ≠ .ldiB imm) ∧ Instr.nop ≠ .output :=
  ⟨rfl, by simp, by simp⟩
theorem witness_InClearsAccumulator : (about 0x0E).halted = false ∧ (about 0x0E).memRead (about 0x0E).pc = 0x0E#8 := by
  decide
theorem witness_OutCopiesAccumulator : (about 0x0F).halted = false ∧ (about 0x0F).memRead (about 0x0F).pc = 0x0F#8 := by
  decide
theorem witness_FlagsColumnOfEachInstruction : (nextOf (exec .subB (about 0x06))).isSome = true ∧
    (nextOf (exec (.jz 0x80) (about 0x0C))).isSome = true ∧ (nextOf (exec .addB (about 0x05))).isSome = true ∧
    (nextOf (exec (.ldiB 0x80) (about 0x02))).isSome = true ∧ (nextOf (exec (.lda 0xFF) (about 0x03))).isSome = true ∧
    (nextOf (exec .input (about 0x0E))).isSome = true := by decide
theorem witness_ArithmeticWrapsModulo256 : (nextOf (exec .addB (about 0x05))).isSome = true ∧
    (nextOf (exec .subB (about 0x06))).isSome = true ∧ (nextOf (exec .andB (about 0x07))).isSome = true ∧
    (nextOf (exec .orB (about 0x08))).isSome = true ∧ (nextOf (exec .xorB (about 0x09))).isSome = true ∧
    (nextOf (exec .notA (about 0x0A))).isSome = true := by decide
theorem witness_FrameOfAccumulatorInstructions : (nextOf (exec (.lda 0xFF) (about 0x03))).isSome = true ∧
    (nextOf (exec .input (about 0x0E))).isSome = true := by decide
theorem witness_FrameOfLdiB : (nextOf (exec (.ldiB 0xFF) (about 0x02))).isSome = true := by decide
theorem witness_FrameOfStore : (nextOf (exec (.sta 0x80) (about 0x04))).isSome = true ∧
    effectiveAddress 0x80 = (0x80 : Byte) ∧ (0x81 : Byte) ≠ 0x80 := by decide
theorem witness_FrameOfJumps : (nextOf (exec (.jmp 0x80) (about 0x0B))).isSome = true ∧
    (nextOf (exec (.jz 0x80) (about 0x0C))).isSome = true ∧ (nextOf (exec (.jc 0x80) (about 0x0D))).isSome = true := by decide
theorem witness_FrameOfNopOutHlt : (nextOf (exec .nop (about 0x00))).isSome = true ∧
    (nextOf (exec .output (about 0x0F))).isSome = true ∧ (nextOf (exec .hlt (about 0xFF))).isSome = true := by decide
/-- A state in which each writer does change its element. -/
theorem witness_EachElementHasOnlyItsWriters :
    (nextOf (exec (.ldiB 0) (about 0x02))).map (fun t => t.b) ≠ some (about 0x02).b ∧
    (nextOf (exec .output (about 0x0F))).map (fun t => t.out) ≠ some (about 0x0F).out ∧
    (nextOf (exec .hlt (about 0xFF))).map (fun t => t.halted) ≠ some false ∧
    (nextOf (exec (.sta 0x81) (about 0x04))).map (fun t => t.memRead 0x81) ≠ some ((about 0x04).memRead 0x81) ∧
    (nextOf (exec .input (about 0x0E))).map (fun t => (t.a, t.flags)) ≠ some ((about 0x0E).a, (about 0x0E).flags) ∧
    (nextOf (exec (.jmp 0x80) (about 0x0B))).map (fun t => t.pc) ≠ some (about 0x0B).pc := by decide
theorem witness_HaltedIsMonotone : (st 0 0 0 0 false false false true []).halted = true ∧
    run 3 (st 0 0 0 0 false false false true []) = .next (0, st 0 0 0 0 false false false true []) := ⟨rfl, rfl⟩
/-- A step that goes on, a run after it that ends, one that faults, and a step that faults. -/
theorem witness_RunFollowsTheLoop : step State.reset = .next { State.reset with pc := 1 } ∧
    run 1 { State.reset with pc := 1 } = .next (1, { State.reset with pc := 2 }) ∧
    run 1 (about 0x10) = .fault (.invalidOpcode 0x10 { about 0x10 with pc := 0 }) ∧
    step (about 0x10) = .fault (.invalidOpcode 0x10 { about 0x10 with pc := 0 }) := ⟨rfl, rfl, rfl, rfl⟩
theorem witness_RunFollowsTheLoop_fault_later :
    step (st 0 0 0 0xFE false false false false [(0xFF, 0x10)]) =
      .next (st 0 0 0 0xFF false false false false [(0xFF, 0x10)]) ∧
    run 1 (st 0 0 0 0xFF false false false false [(0xFF, 0x10)]) =
      .fault (.invalidOpcode 0x10 (st 0 0 0 0x00 false false false false [(0xFF, 0x10)])) := ⟨rfl, rfl⟩
theorem witness_RunsCompose : run 1 State.reset = .next (1, { State.reset with pc := 1 }) ∧
    run 2 { State.reset with pc := 1 } = .next (2, { State.reset with pc := 3 }) ∧
    run 1 (about 0x10) = .fault (.invalidOpcode 0x10 { about 0x10 with pc := 0 }) ∧
    run 1 (st 0 0 0 0xFE false false false false [(0xFF, 0x10)]) =
      .next (1, st 0 0 0 0xFF false false false false [(0xFF, 0x10)]) := ⟨rfl, rfl, rfl, rfl⟩
/-- A run that halts, one that uses up its budget, and one that faults. -/
theorem witness_RunEndsInOneOfThreeWays : run 2 (about 0xFF) = .next (1, { about 0xFF with pc := 0, halted := true }) ∧
    run 2 State.reset = .next (2, { State.reset with pc := 2 }) ∧
    run 2 (about 0xFE) = .fault (.invalidOpcode 0xFE { about 0xFE with pc := 0 }) := ⟨rfl, rfl, rfl⟩
theorem witness_LargerBudgetFinishesAlike : run 1 (about 0xFF) = .next (1, { about 0xFF with pc := 0, halted := true }) ∧
    RunFinishes 1 (about 0xFF) := ⟨rfl, 1, _, rfl, rfl⟩
/-- Three zero cells across the top of memory, a HLT after them. -/
theorem witness_UnprogrammedMemoryRunsNops :
    (st 1 2 3 0xFE false false false false [(0x01, 0xFF)]).halted = false ∧
    ∀ k, k < 3 → (st 1 2 3 0xFE false false false false [(0x01, 0xFF)]).memRead (0xFE + BitVec.ofNat 8 k) = 0 := by
  decide
theorem witness_StepRequestIsRunOfOne : (st 0 0 0 0 false false false true []).halted = true ∧
    step State.reset = .next { State.reset with pc := 1 } ∧
    step (about 0xFE) = .fault (.invalidOpcode 0xFE { about 0xFE with pc := 0 }) ∧
    Session.afterReset.move .step = .ok ⟨{ State.reset with pc := 1 }, true, some .stepped, false⟩ :=
  ⟨rfl, rfl, rfl, rfl⟩
/-- An image of two bytes, no later byte in the cell of either, and a cell that neither reaches. -/
theorem witness_ImageLoadPlacesEachByte : (1 < [0x01#8, 0x0B#8].length) ∧ ((1 - 0) % 256 ≠ 0) ∧
    ∀ k, k < [0x01#8, 0x0B#8].length → (0x80 : Byte) ≠ 0xFF + BitVec.ofNat 8 k := by decide
theorem witness_ImageIsLoadedBeforeFirstRequest :
    ({ Session.afterReset with started := true } : Session).started = true ∧ HostMove.run 0 ≠ .reset ∧
    ∀ addr data, HostMove.run 0 ≠ .load addr data := ⟨rfl, by simp, by simp⟩
theorem witness_HostWritesNoRegister :
    Session.afterReset.move (.load 0xFF 0x01) =
      .ok { Session.afterReset with core := State.reset.memWrite 0xFF 0x01 } ∧
    ({ Session.afterReset with core := { State.reset with halted := true } } : Session).move (.run 3) =
      .ok ⟨{ State.reset with halted := true }, true, some (.ok 0), false⟩ := ⟨rfl, rfl⟩
/-- A run request that does not fault and moves PC, and a step request that faults. -/
theorem witness_HostWritesNoRegister_requests :
    Session.afterReset.move (.run 3) = .ok ⟨{ State.reset with pc := 3 }, true, some (.ok 3), false⟩ ∧
    ({ Session.afterReset with core := about 0x10 } : Session).move .step =
      .ok ⟨{ about 0x10 with pc := 0 }, true, some (.invalidOpcode 0x10), true⟩ := ⟨rfl, rfl⟩
/-- A run that uses up its budget, one that halts before it does, and a run of one. -/
theorem witness_RequestDeliversWhatRunAnswers :
    run 3 Session.afterReset.core = .next (3, { State.reset with pc := 3 }) ∧
    run 2 (about 0xFF) = .next (1, { about 0xFF with pc := 0, halted := true }) ∧
    run 1 Session.afterReset.core = .next (1, { State.reset with pc := 1 }) := ⟨rfl, rfl, rfl⟩
theorem witness_FaultIsRememberedUntilReset :
    run 1 (about 0x10) = .fault (.invalidOpcode 0x10 { about 0x10 with pc := 0 }) ∧
    ({ Session.afterReset with everFaulted := true } : Session).move (.run 0) =
      .ok ⟨State.reset, true, some (.ok 0), true⟩ := ⟨rfl, rfl⟩
theorem witness_EveryHostMoveKeepsInvariant : Session.afterReset.core.mem.wf = true ∧
    Session.afterReset.moves [.load 0 0x0E, .run 1, .reset] = .ok Session.afterReset := ⟨rfl, rfl⟩
/-- One state for each clause of the list of accesses (`20_memory.md` R36). -/
theorem witness_AccessesOfEachInstruction :
    stepAccesses (about 0x01) = [.read 0xFF, .read 0x00] ∧
    stepAccesses (about 0x03) = [.read 0xFF, .read 0x00, .read 0x80] ∧
    stepAccesses (about 0x04) = [.read 0xFF, .read 0x00, .write 0x80 0x80] ∧
    stepAccesses (about 0x05) = [.read 0xFF] ∧ stepAccesses (about 0x10) = [.read 0xFF] := by decide
theorem witness_StepWritesItsAccessesOnly : (nextOf (step (about 0x04))).isSome = true ∧
    (faultOf (step (about 0x10))).isSome = true := by decide
/-- Two states that differ in a cell the step does not read. -/
theorem witness_StepDependsOnCellsItReadsOnly :
    (about 0x05).memWrite 0x80 0x01 = { about 0x05 with mem := ((about 0x05).memWrite 0x80 0x01).mem } ∧
    (about 0x05).memWrite 0x80 0x01 ≠ about 0x05 ∧ stepAccesses (about 0x05) = [.read 0xFF] ∧
    ((about 0x05).memWrite 0x80 0x01).memRead 0xFF = (about 0x05).memRead 0xFF := by decide

end Sys2Proof.Tests
end

section
/-! SUPPORT. The reset state and the flag unit (`10_state.md` R16, R17, R23). -/

namespace Sys2Proof.Machine

/-- At reset no cell is listed, so every read gives the reset value. -/
theorem State.memRead_reset (addr : Byte) : State.reset.memRead addr = 0 := Memory.read_nil addr

/-- Settles O1: the registers are those of the reset literal, and memory is the empty list. -/
theorem resetStateIsAllZero : Obligations.ResetStateIsAllZero :=
  ⟨rfl, rfl, rfl, rfl, rfl, rfl, rfl, rfl, State.memRead_reset, State.fetch_fst State.reset⟩

/-- R16's mask keeps the remainder modulo 256. -/
theorem and_0xFF_eq_mod (value : Nat) : value &&& 0xFF = value % 256 :=
  Nat.and_two_pow_sub_one_eq_mod value 8

theorem flagsFrom_z_eq_mask (value carry : Nat) :
    (flagsFrom value carry).z = decide (value &&& 0xFF = 0) := by
  have hzero : BitVec.ofNat 8 value = 0 ↔ value % 256 = 0 := by simp [← BitVec.toNat_inj]
  simp only [flagsFrom, and_0xFF_eq_mod, beq_eq_decide, hzero]

theorem flagsFrom_n_eq_mask (value carry : Nat) :
    (flagsFrom value carry).n = (value &&& 0xFF).testBit 7 := by
  have hmask : Nat.testBit 0xFF 7 = true := by decide
  simp [flagsFrom, ← BitVec.getLsbD_eq_getElem, BitVec.getLsbD_ofNat, Nat.testBit_and, hmask]

theorem flagsFrom_c_eq_mask (value carry : Nat) :
    (flagsFrom value carry).c = decide (carry &&& 1 = 1) := by
  simp [flagsFrom, ← BitVec.getLsbD_eq_getElem, BitVec.getLsbD_ofNat, Nat.and_one_is_mod]

/-- Settles O34, flag by flag: `BitVec.ofNat` truncates as R16's masks do. -/
theorem flagUnitWritesAllThree : Obligations.FlagUnitWritesAllThree := fun value carry =>
  ⟨flagsFrom_z_eq_mask value carry, flagsFrom_n_eq_mask value carry, flagsFrom_c_eq_mask value carry⟩

/-- Bit 8 of a 9-bit result is its quotient by 256. -/
theorem bit8_toNat (r : Nine) : r[8].toNat = r.toNat / 256 := by
  have hlt : r.toNat < 512 := r.isLt
  rw [bit8_eq_decide]
  by_cases hbit : 256 ≤ r.toNat
  · simp only [hbit, decide_true, Bool.toNat_true]
    omega
  · simp only [hbit, decide_false, Bool.toNat_false]
    omega

/-- The flag unit's arguments in a 9-bit write-back, as integers: the low 8 bits and bit 8. -/
theorem State.setAFromNine_flags_eq_mod_div (s : State) (r : Nine) :
    (s.setAFromNine r).flags = flagsFrom (r.toNat % 256) (r.toNat / 256) := by
  rw [setAFromNine_flags, bit8_toNat, BitVec.toNat_setWidth]

/-- Settles O35, by cases on the instruction: the next state is one of the shared updates of `State`, whose law says
what becomes of the flags; only the 9-bit results of ADD and SUB need arithmetic. -/
theorem flagsColumnOfEachInstruction : Obligations.FlagsColumnOfEachInstruction := by
  intro i s t hnext
  cases i with
  | addB =>
    obtain rfl := Host.Outcome.next.inj hnext
    simp only [State.setAFromNine_flags_eq_mod_div, sum9_toNat]
  | subB =>
    obtain rfl := Host.Outcome.next.inj hnext
    simp only [State.setAFromNine_flags_eq_mod_div, difference9_toNat]
  | jz addr | jc addr =>
    obtain rfl := Host.Outcome.next.inj hnext
    exact State.jumpIf_flags s _ _
  | ldiA imm | lda addr | andB | orB | xorB | notA | input =>
    obtain rfl := Host.Outcome.next.inj hnext
    exact State.setAWithFlags_flags s _ _
  | ldiB imm =>
    obtain rfl := Host.Outcome.next.inj hnext
    exact State.setBWithFlags_flags s _ _
  | nop | sta addr | jmp addr | output | hlt =>
    obtain rfl := Host.Outcome.next.inj hnext
    rfl

end Sys2Proof.Machine
end

section
/-! SUPPORT. Fetch and memory writes (`20_memory.md` R31, R32, R33). -/

namespace Sys2Proof

/-- The decoder's operand count follows the opcode list of `30_encoding.md` R50. -/
theorem operandBytes_eq_toNat_takesOperand (op : Byte) : operandBytes op = (takesOperand op).toNat := by
  revert op
  decide

end Sys2Proof

namespace Sys2Proof.Machine

namespace State

/-- A fetch moves PC by one modulo 256, as an integer (R33). -/
theorem fetch_pc_toNat (s : State) : s.fetch.2.pc.toNat = (s.pc.toNat + 1) % 256 := by
  rw [fetch_pc, BitVec.toNat_add]
  rfl

theorem fetchInstr_of_takesOperand {s : State} (hop : takesOperand (s.memRead s.pc) = true) :
    s.fetchInstr = ([s.memRead s.pc, s.memRead (s.pc + 1)], { s with pc := s.pc + 2 }) :=
  fetchInstr_two (by rw [operandBytes_eq_toNat_takesOperand, hop, Bool.toNat_true])

theorem fetchInstr_of_not_takesOperand {s : State} (hop : takesOperand (s.memRead s.pc) = false) :
    s.fetchInstr = ([s.memRead s.pc], { s with pc := s.pc + 1 }) :=
  fetchInstr_one (by rw [operandBytes_eq_toNat_takesOperand, hop, Bool.toNat_false])

/-- Any state that holds the memory of a write reads the byte written in the cell written. -/
theorem memRead_of_mem_eq_memWrite {s u : State} {addr v : Byte} (hmem : u.mem = (s.memWrite addr v).mem) :
    u.memRead addr = v := by
  rw [memRead_eq_of_mem hmem, memRead_memWrite, if_pos rfl]

end State

/-- PC is already past the instruction's bytes when a meaning starts (`40_control.md` R71), and only a jump moves it
again (R33). -/
theorem exec_pc_of_not_jump {i : Instr} {s t : State} (hnext : exec i s = .next t)
    (hjump : ∀ addr, i ≠ .jmp addr ∧ i ≠ .jz addr ∧ i ≠ .jc addr) : t.pc = s.pc := by
  cases i with
  | jmp addr => exact absurd rfl (hjump addr).1
  | jz addr => exact absurd rfl (hjump addr).2.1
  | jc addr => exact absurd rfl (hjump addr).2.2
  | nop | ldiA imm | ldiB imm | lda addr | sta addr | addB | subB | andB | orB | xorB | notA | input | output | hlt =>
    obtain rfl := Host.Outcome.next.inj hnext
    rfl

/-- Settles O4: one fetch by its definition, the fetch of an instruction by the operand count of its opcode byte, and
PC in a meaning by cases on the instruction. -/
theorem fetchReadsByteAndAdvancesPc : Obligations.FetchReadsByteAndAdvancesPc :=
  ⟨fun s => ⟨rfl, s.fetch_pc_toNat⟩,
   fun _ => State.fetchInstr_of_takesOperand,
   fun _ => State.fetchInstr_of_not_takesOperand,
   fun _ _ _ => exec_pc_of_not_jump⟩

/-- Settles O5: read after write; the fetch and the LDA are reads of a state that holds the memory written. -/
theorem writeChangesOneCellOnly : Obligations.WriteChangesOneCellOnly := by
  intro s addr v
  refine ⟨s.memRead_memWrite addr v, rfl, ?fetched, _, exec_lda _ addr, ?loaded⟩
  case fetched =>
    rw [State.fetch_fst]
    exact State.memRead_of_mem_eq_memWrite (s := s) rfl
  case loaded =>
    rw [State.setAWithFlags_a]
    exact State.memRead_of_mem_eq_memWrite rfl

end Sys2Proof.Machine
end

section
/-! SUPPORT. NOP and HLT (`40_control.md` R72, R73). -/

namespace Sys2Proof.Machine

/-- On a halted core the loop stops before its first step, whatever the budget. -/
theorem run_of_halted {s : State} (hhalted : s.halted = true) (n : Nat) : run n s = .next (0, s) :=
  runFrom_of_halted hhalted 0 n

/-- A step that goes on is the whole of a run with budget one, and is counted (`70_reset_and_hazards.md` R142). -/
theorem run_one_of_next {s t : State} (hrun : s.halted = false) (hstep : step s = .next t) : run 1 s = .next (1, t) :=
  runFrom_of_next hrun hstep 0 0

theorem step_of_nop {s : State} (hrun : s.halted = false) (hop : s.memRead s.pc = 0x00#8) :
    step s = .next { s with pc := s.pc + 1 } := by
  have hselect : select (s.memRead s.pc) = .f0 .nop := by rw [hop]; rfl
  rw [step_of_f0 hrun hselect, exec_nop]

theorem step_of_hlt {s : State} (hrun : s.halted = false) (hop : s.memRead s.pc = 0xFF#8) :
    step s = .next { s with halted := true, pc := s.pc + 1 } := by
  have hselect : select (s.memRead s.pc) = .f0 .hlt := by rw [hop]; rfl
  rw [step_of_f0 hrun hselect, exec_hlt]

/-- Settles O17: the step of opcode 00 is the meaning of NOP after the fetch of one byte. -/
theorem nopChangesNothingButPc : Obligations.NopChangesNothingButPc :=
  ⟨exec_nop, fun _ => step_of_nop⟩

/-- Settles O18: the step of opcode FF ends in a halted state, which fixes the run of one and every later run. -/
theorem hltHaltsTheCore : Obligations.HltHaltsTheCore :=
  ⟨exec_hlt, fun _ hrun hop =>
    have hstep := step_of_hlt hrun hop
    ⟨hstep, run_one_of_next hrun hstep, run_of_halted rfl⟩⟩

end Sys2Proof.Machine
end

section
/-! SUPPORT. Loads and the store (`41_load_store.md` R80 to R83). -/

namespace Sys2Proof.Machine

/-- With carry term 0, the flag unit clears Carry and reads Zero and Negative off the byte (`10_state.md` R16). -/
theorem flagsFrom_toNat_zero (v : Byte) :
    flagsFrom v.toNat 0 = { z := decide (v = 0), c := false, n := v[7] } := by
  rw [Flags.mk.injEq]
  exact ⟨flagsFrom_z v 0, flagsFrom_c_zero v.toNat, flagsFrom_n v 0⟩

namespace State

theorem setAWithFlags_zero (s : State) (v : Byte) :
    s.setAWithFlags v 0 = { s with a := v, flags := { z := decide (v = 0), c := false, n := v[7] } } := by
  rw [setAWithFlags, flagsFrom_toNat_zero]

theorem setBWithFlags_zero (s : State) (v : Byte) :
    s.setBWithFlags v 0 = { s with b := v, flags := { z := decide (v = 0), c := false, n := v[7] } } := by
  rw [setBWithFlags, flagsFrom_toNat_zero]

end State

/-- The step of a known opcode byte of format F1 (`40_control.md` R70, R71). -/
theorem step_of_f1_opcode {s : State} {op : Byte} {withOperand : Byte → Instr} (hselect : select op = .f1 withOperand)
    (hrun : s.halted = false) (hop : s.memRead s.pc = op) :
    step s = exec (withOperand (s.memRead (s.pc + 1))) { s with pc := s.pc + 2 } :=
  step_of_f1 hrun (hop ▸ hselect)

/-- No meaning but that of LDI B writes B (R81). -/
theorem exec_b_of_ne_ldiB {i : Instr} {s t : State} (hnext : exec i s = .next t) (hne : ∀ imm, i ≠ .ldiB imm) :
    t.b = s.b := by
  cases i with
  | ldiB imm => exact absurd rfl (hne imm)
  | jz addr | jc addr =>
    obtain rfl := Host.Outcome.next.inj hnext
    exact State.jumpIf_b s _ _
  | nop | ldiA imm | lda addr | sta addr | addB | subB | andB | orB | xorB | notA | jmp addr | input | output | hlt =>
    obtain rfl := Host.Outcome.next.inj hnext
    rfl

/-- Settles O19: LDI A is the shared write of A with carry term 0. -/
theorem ldiALoadsImmediate : Obligations.LdiALoadsImmediate :=
  ⟨fun imm s => by rw [exec_ldiA, State.setAWithFlags_zero],
   fun _ => step_of_f1_opcode rfl⟩

/-- Settles O20: LDI B is the shared write of B with carry term 0, and B's frame goes by cases on the instruction. -/
theorem ldiBLoadsImmediate : Obligations.LdiBLoadsImmediate :=
  ⟨fun imm s => by rw [exec_ldiB, State.setBWithFlags_zero],
   fun _ => step_of_f1_opcode rfl,
   fun _ _ _ => exec_b_of_ne_ldiB⟩

/-- Settles O21: LDA is the shared write of A with the byte read and carry term 0. -/
theorem ldaLoadsMemoryByte : Obligations.LdaLoadsMemoryByte :=
  ⟨fun addr s => by rw [exec_lda, State.setAWithFlags_zero],
   fun _ => step_of_f1_opcode rfl⟩

/-- Settles O22: STA is one memory write of A, so read after write says what each cell holds. -/
theorem staStoresAccumulator : Obligations.StaStoresAccumulator :=
  ⟨fun addr s => ⟨s.memWrite addr s.a, exec_sta s addr, rfl, s.memRead_memWrite addr s.a⟩,
   fun _ => step_of_f1_opcode rfl⟩

end Sys2Proof.Machine
end

section
/-! SUPPORT. Arithmetic and logic (`42_alu.md` R90 to R95). -/

namespace Sys2Proof.Machine

/-- The step of a known opcode byte of format F0 (`40_control.md` R70, R71). -/
theorem step_of_f0_opcode {s : State} {op : Byte} {i : Instr} (hselect : select op = .f0 i)
    (hrun : s.halted = false) (hop : s.memRead s.pc = op) : step s = exec i { s with pc := s.pc + 1 } :=
  step_of_f0 hrun (hop ▸ hselect)

namespace State

/-! ### The write-back of a 9-bit result: A is its remainder by 256, Carry its bit 8 -/

variable (s : State) (r : Nine)

theorem setAFromNine_a_toNat : (s.setAFromNine r).a.toNat = r.toNat % 256 := by
  rw [setAFromNine_a, BitVec.toNat_setWidth]

theorem setAFromNine_c : (s.setAFromNine r).flags.c = decide (256 ≤ r.toNat) := by
  rw [setAFromNine_flags, flagsFrom_c_toNat, bit8_eq_decide]

theorem setAFromNine_z : (s.setAFromNine r).flags.z = decide ((s.setAFromNine r).a = 0) :=
  flagsFrom_z _ _

theorem setAFromNine_z_eq_mod : (s.setAFromNine r).flags.z = decide (r.toNat % 256 = 0) := by
  have hzero : (s.setAFromNine r).a = 0 ↔ r.toNat % 256 = 0 := by
    rw [← BitVec.toNat_inj, setAFromNine_a_toNat]
    rfl
  rw [setAFromNine_z, decide_eq_decide.mpr hzero]

theorem setAFromNine_n : (s.setAFromNine r).flags.n = (s.setAFromNine r).a[7] :=
  flagsFrom_n _ _

end State

/-! ### The 9-bit difference (R91) -/

/-- Modulo 512 the 9-bit difference is the integer one. -/
theorem difference9_toInt (x y : Byte) :
    ((difference9 x y).toNat : Int) = ((x.toNat : Int) - y.toNat) % 512 := by
  have hy : y.toNat < 256 := y.isLt
  rw [difference9_toNat]
  omega

/-- Bit 8 of the difference is the borrow. -/
theorem difference9_ge_iff_lt (x y : Byte) : 256 ≤ (difference9 x y).toNat ↔ x.toNat < y.toNat := by
  have hx : x.toNat < 256 := x.isLt
  have hy : y.toNat < 256 := y.isLt
  rw [difference9_toNat]
  omega

/-- The low byte of the difference vanishes exactly when the operands are equal. -/
theorem difference9_mod_eq_zero_iff (x y : Byte) : (difference9 x y).toNat % 256 = 0 ↔ x = y := by
  have hx : x.toNat < 256 := x.isLt
  have hy : y.toNat < 256 := y.isLt
  rw [difference9_toNat, ← BitVec.toNat_inj]
  omega

/-- The complement within 8 bits: Zero is set exactly by 0xFF, and Negative is the inverse of bit 7 (R95). -/
theorem State.setAWithFlags_not (s : State) (v : Byte) :
    s.setAWithFlags (~~~v) 0 =
      { s with a := 255 - v, flags := { z := decide (v = 0xFF#8), c := false, n := !v[7] } } := by
  have hsub : 255 - v = ~~~v := BitVec.allOnes_sub_eq_not v
  have hzero : ~~~v = 0 ↔ v = 0xFF#8 := BitVec.not_eq_comm
  rw [setAWithFlags_zero, hsub, decide_eq_decide.mpr hzero, BitVec.getElem_not]

/-- Settles O23: ADD writes back the 9-bit sum, which is the integer sum. -/
theorem addSumsWithCarryOut : Obligations.AddSumsWithCarryOut := by
  refine ⟨fun s => ⟨_, exec_addB s, rfl, ?sum, ?carry, ?zero, State.setAFromNine_n s _⟩,
    fun _ => step_of_f0_opcode rfl⟩
  case sum => rw [State.setAFromNine_a_toNat, sum9_toNat]
  case carry => rw [State.setAFromNine_c, sum9_toNat]
  case zero => rw [State.setAFromNine_z_eq_mod, sum9_toNat]

/-- Settles O24: SUB writes back the 9-bit difference, which is the integer difference modulo 512; its bit 8 is the
borrow, and its low byte is 0 exactly for equal operands. -/
theorem subDifferenceWithBorrow : Obligations.SubDifferenceWithBorrow := by
  refine ⟨fun s => ⟨_, exec_subB s, rfl, ?difference, ?bit8, ?borrow, State.setAFromNine_z s _, ?equal,
    State.setAFromNine_n s _⟩, fun _ => step_of_f0_opcode rfl⟩
  case difference => rw [State.setAFromNine_a_toNat, Int.natCast_emod, difference9_toInt]; rfl
  case bit8 =>
    rw [State.setAFromNine_c, ← difference9_toInt]
    exact decide_eq_decide.mpr Int.ofNat_le.symm
  case borrow => rw [State.setAFromNine_c, decide_eq_decide.mpr (difference9_ge_iff_lt s.a s.b)]
  case equal => rw [State.setAFromNine_z_eq_mod, decide_eq_decide.mpr (difference9_mod_eq_zero_iff s.a s.b)]

/-- Settles O25: AND is the shared write of A with carry term 0. -/
theorem andOfAccumulatorAndB : Obligations.AndOfAccumulatorAndB :=
  ⟨fun s => by rw [exec_andB, State.setAWithFlags_zero],
   fun _ => step_of_f0_opcode rfl⟩

/-- Settles O26: OR is the shared write of A with carry term 0. -/
theorem orOfAccumulatorAndB : Obligations.OrOfAccumulatorAndB :=
  ⟨fun s => by rw [exec_orB, State.setAWithFlags_zero],
   fun _ => step_of_f0_opcode rfl⟩

/-- Settles O27: XOR is the shared write of A with carry term 0. -/
theorem xorOfAccumulatorAndB : Obligations.XorOfAccumulatorAndB :=
  ⟨fun s => by rw [exec_xorB, State.setAWithFlags_zero],
   fun _ => step_of_f0_opcode rfl⟩

/-- Settles O28: NOT is the shared write of A with the complement, which is 255 less A. -/
theorem notComplementsAccumulator : Obligations.NotComplementsAccumulator :=
  ⟨fun s => by rw [exec_notA, State.setAWithFlags_not],
   fun _ => step_of_f0_opcode rfl⟩

end Sys2Proof.Machine
end

section
/-! SUPPORT. Jumps (`43_jumps.md` R100 to R102). -/

namespace Sys2Proof.Machine

/-! ### The next state of a conditional jump: PC alone depends on the flag -/

theorem exec_jz_eq_if (addr : Byte) (s : State) :
    exec (.jz addr) s = .next { s with pc := if s.flags.z = true then addr else s.pc } := by
  rw [exec_jz, State.jumpIf_eq]

theorem exec_jc_eq_if (addr : Byte) (s : State) :
    exec (.jc addr) s = .next { s with pc := if s.flags.c = true then addr else s.pc } := by
  rw [exec_jc, State.jumpIf_eq]

/-- Where a set Carry comes from (R102): the flags column leaves it to the sum of ADD and the difference of SUB, to the
instructions that keep the flags, and to no instruction whose carry term is 0. -/
theorem exec_carry_origin {i : Instr} {s t : State} (hnext : exec i s = .next t) (hcarry : t.flags.c = true) :
    (i = .addB ∧ s.a.toNat + s.b.toNat ≥ 256) ∨ (i = .subB ∧ s.a.toNat < s.b.toNat) ∨
    (s.flags.c = true ∧ (i = .nop ∨ (∃ x, i = .sta x) ∨ i = .output ∨ (∃ x, i = .jmp x) ∨ (∃ x, i = .jz x) ∨
      (∃ x, i = .jc x) ∨ i = .hlt)) := by
  have hflags := flagsColumnOfEachInstruction i s t hnext
  cases i with
  | addB =>
    obtain rfl := Host.Outcome.next.inj hnext
    rw [State.setAFromNine_c, sum9_toNat] at hcarry
    exact .inl ⟨rfl, of_decide_eq_true hcarry⟩
  | subB =>
    obtain rfl := Host.Outcome.next.inj hnext
    rw [State.setAFromNine_c] at hcarry
    exact .inr (.inl ⟨rfl, (difference9_ge_iff_lt s.a s.b).mp (of_decide_eq_true hcarry)⟩)
  | nop | sta addr | jmp addr | jz addr | jc addr | output | hlt =>
    have hkept : s.flags.c = true := hflags ▸ hcarry
    exact .inr (.inr ⟨hkept, by simp⟩)
  | ldiA imm | ldiB imm | lda addr | andB | orB | xorB | notA | input =>
    rw [hflags, flagsFrom_c_zero] at hcarry
    exact absurd hcarry Bool.false_ne_true

/-- Settles O29: the step of opcode 0B overwrites the PC that its fetch advanced. -/
theorem jmpGoesToOperand : Obligations.JmpGoesToOperand :=
  ⟨fun addr s => exec_jmp s addr,
   fun _ hrun hop => (step_of_f1_opcode rfl hrun hop).trans (exec_jmp _ _)⟩

/-- Settles O30: JZ is the conditional transfer on Zero, run with PC past the operand. -/
theorem jzJumpsWhenZeroIsSet : Obligations.JzJumpsWhenZeroIsSet :=
  ⟨exec_jz_eq_if,
   fun _ hrun hop => (step_of_f1_opcode rfl hrun hop).trans (exec_jz_eq_if _ _)⟩

/-- Settles O31: JC is the conditional transfer on Carry, run with PC past the operand; Carry's origin goes by cases on
the instruction. -/
theorem jcJumpsWhenCarryIsSet : Obligations.JcJumpsWhenCarryIsSet :=
  ⟨exec_jc_eq_if,
   fun _ hrun hop => (step_of_f1_opcode rfl hrun hop).trans (exec_jc_eq_if _ _),
   fun _ _ _ => exec_carry_origin⟩

end Sys2Proof.Machine
end

section
/-! SUPPORT. IN and OUT (`44_io.md` R110, R111). -/

namespace Sys2Proof.Machine

/-- The step of opcode 0F latches the A it was fetched with, since the fetch moves PC alone. -/
theorem step_of_output {s : State} (hrun : s.halted = false) (hop : s.memRead s.pc = 0x0F#8) :
    step s = .next { s with out := s.a, pc := s.pc + 1 } :=
  (step_of_f0_opcode rfl hrun hop).trans (exec_output _)

/-- No meaning but that of OUT writes the output latch (`10_state.md` R13). -/
theorem exec_out_of_ne_output {i : Instr} {s t : State} (hnext : exec i s = .next t) (hne : i ≠ .output) :
    t.out = s.out := by
  cases i with
  | output => exact absurd rfl hne
  | jz addr | jc addr =>
    obtain rfl := Host.Outcome.next.inj hnext
    exact State.jumpIf_out s _ _
  | nop | ldiA imm | ldiB imm | lda addr | sta addr | addB | subB | andB | orB | xorB | notA | jmp addr | input | hlt =>
    obtain rfl := Host.Outcome.next.inj hnext
    rfl

/-- Settles O32: IN is the shared write of A with the constant 0 and carry term 0, and the flags of the byte 0 are
computed. -/
theorem inClearsAccumulator : Obligations.InClearsAccumulator :=
  ⟨fun s => by rw [exec_input, State.setAWithFlags_zero]; rfl,
   fun _ => step_of_f0_opcode rfl⟩

/-- Settles O33: OUT writes the latch from A, and the latch's frame goes by cases on the instruction. -/
theorem outCopiesAccumulator : Obligations.OutCopiesAccumulator :=
  ⟨exec_output,
   fun _ => step_of_output,
   fun _ _ _ => exec_out_of_ne_output⟩

end Sys2Proof.Machine
end

section
/-! SUPPORT. InvalidOpcode and completion (`60_exceptions.md` R121, R122). -/

namespace Sys2Proof

/-- The illegal opcode bytes as an interval (`30_encoding.md` R54): a byte other than 0xFF is at most 0xFE. -/
theorem select_illegal_iff_range (op : Byte) : select op = .illegal ↔ 0x10 ≤ op.toNat ∧ op.toNat ≤ 0xFE := by
  have hlt : op.toNat < 256 := op.isLt
  rw [select_illegal_iff, legalOpcode, Bool.or_eq_false_iff, decide_eq_false_iff_not, beq_eq_false_iff_ne]
  omega

end Sys2Proof

namespace Sys2Proof.Machine

/-- No meaning ends in a fault or a refusal (R122). -/
theorem exec_completes (i : Instr) (s : State) : ∃ t, exec i s = .next t := by
  cases i with
  | nop | ldiA imm | ldiB imm | lda addr | sta addr | addB | subB | andB | orB | xorB | notA | jmp addr | jz addr
  | jc addr | input | output | hlt => exact ⟨_, rfl⟩

/-- A step goes on unless a core that is not halted meets an illegal opcode byte (R120, R122). -/
theorem step_next_or_illegal (s : State) :
    (∃ t, step s = .next t) ∨
    (s.halted = false ∧ select (s.memRead s.pc) = .illegal ∧
      step s = .fault (.invalidOpcode (s.memRead s.pc) { s with pc := s.pc + 1 })) := by
  obtain ⟨_, hstep⟩ | ⟨_, i, _, hstep⟩ | ⟨_, withOperand, _, hstep⟩ | hillegal := step_cases s
  · exact .inl ⟨s, hstep⟩
  · rw [hstep]
    exact .inl (exec_completes i _)
  · rw [hstep]
    exact .inl (exec_completes (withOperand _) _)
  · exact .inr hillegal

/-- When a step faults, by what its opcode byte selects, and with which fault (R121). -/
theorem step_eq_fault_iff (s : State) (f : Fault) :
    step s = .fault f ↔ s.halted = false ∧ select (s.memRead s.pc) = .illegal ∧
      f = .invalidOpcode (s.memRead s.pc) { s with pc := s.pc + 1 } := by
  constructor
  · intro hfault
    obtain ⟨t, hnext⟩ | ⟨hrun, hop, hstep⟩ := step_next_or_illegal s
    · cases hnext.symm.trans hfault
    · exact ⟨hrun, hop, Host.Outcome.fault.inj (hfault.symm.trans hstep)⟩
  · rintro ⟨hrun, hop, rfl⟩
    exact step_of_illegal hrun hop

/-- Settles O15: a step faults exactly on an opcode byte that selects nothing, and those bytes are 0x10 to 0xFE. -/
theorem stepFaultsOnIllegalOpcodeOnly : Obligations.StepFaultsOnIllegalOpcodeOnly := by
  intro s f
  rw [step_eq_fault_iff, select_illegal_iff_range, and_assoc]

/-- Settles O16: every meaning answers a next state, so a step that does not go on met an illegal opcode byte. -/
theorem everyInstructionCompletes : Obligations.EveryInstructionCompletes :=
  ⟨exec_completes, fun s =>
    (step_next_or_illegal s).imp_right fun ⟨_, _, hstep⟩ => ⟨_, _, hstep⟩⟩

end Sys2Proof.Machine
end

section
/-! SUPPORT. Decoding against encoding (`30_encoding.md` R50, R53, R54). -/

namespace Sys2Proof

/-- An F1 opcode byte with no operand byte after it is rejected by name (log entry 11). -/
theorem decode_of_f1_nil {op : Byte} {withOperand : Byte → Instr} (hop : select op = .f1 withOperand) :
    decode [op] = .error (.missingOperand op) := by
  simp [decode, hop]

/-- What a byte sequence that decodes looks like, by the format of its opcode byte (R50). -/
theorem decode_eq_ok_cases {bytes rest : List Byte} {i : Instr} (hdecode : decode bytes = .ok (i, rest)) :
    (∃ op, select op = .f0 i ∧ bytes = op :: rest) ∨
    (∃ op withOperand x, select op = .f1 withOperand ∧ i = withOperand x ∧ bytes = op :: x :: rest) := by
  cases bytes with
  | nil => cases hdecode
  | cons op tail =>
    cases hop : select op with
    | f0 j =>
      rw [decode_of_f0 hop] at hdecode
      cases hdecode
      exact .inl ⟨op, hop, rfl⟩
    | f1 withOperand =>
      cases tail with
      | nil =>
        rw [decode_of_f1_nil hop] at hdecode
        cases hdecode
      | cons x tail =>
        rw [decode_of_f1 hop] at hdecode
        cases hdecode
        exact .inr ⟨op, withOperand, x, hop, rfl, rfl⟩
    | illegal =>
      rw [decode_of_illegal hop] at hdecode
      cases hdecode

theorem decode_encode_append (i : Instr) (rest : List Byte) : decode (encode i ++ rest) = .ok (i, rest) := by
  cases i with
  | nop | addB | subB | andB | orB | xorB | notA | input | output | hlt => exact decode_of_f0 rfl rest
  | ldiA x | ldiB x | lda x | sta x | jmp x | jz x | jc x => exact decode_of_f1 rfl x rest

theorem decode_eq_ok_iff {bytes rest : List Byte} {i : Instr} :
    decode bytes = .ok (i, rest) ↔ bytes = encode i ++ rest := by
  constructor
  · intro hdecode
    obtain ⟨op, hop, rfl⟩ | ⟨op, withOperand, x, hop, rfl, rfl⟩ := decode_eq_ok_cases hdecode
    · rw [select_f0_cases hop]
      rfl
    · rw [select_f1_cases hop]
      rfl
  · rintro rfl
    exact decode_encode_append i rest

/-- Settles O8: an opcode byte that selects an instruction is the head of that instruction's encoding, and the head of
an encoding selects its instruction. -/
theorem decodeAndEncodeAgree : Obligations.DecodeAndEncodeAgree :=
  fun _ _ _ _ => decode_eq_ok_iff

theorem encodingShape (i : Instr) : Laws.EncodingShape.Statement i := by
  cases i with
  | nop | ldiA imm | ldiB imm | lda addr | sta addr | addB | subB | andB | orB | xorB | notA | jmp addr | jz addr
  | jc addr | input | output | hlt => exact ⟨rfl, rfl⟩

theorem wellFormedBytes_encode (i : Instr) : wellFormedBytes (encode i) = true := (encodingShape i).1

theorem encode_length (i : Instr) : (encode i).length = i.length := (encodingShape i).2

theorem length_of_f0 {op : Byte} {i : Instr} (hop : select op = .f0 i) : i.length = 1 := by
  rw [← encode_length, select_f0_cases hop]
  rfl

theorem length_of_f1 {op : Byte} {withOperand : Byte → Instr} (hop : select op = .f1 withOperand) (x : Byte) :
    (withOperand x).length = 2 := by
  rw [← encode_length, select_f1_cases hop]
  rfl

/-- The byte check asks for a legal opcode byte and for as many operand bytes as the core fetches. -/
theorem wellFormedBytes_cons_iff (op : Byte) (operands : List Byte) :
    wellFormedBytes (op :: operands) = true ↔ select op ≠ .illegal ∧ operands.length = operandBytes op := by
  have hcount : operandBytes op = if takesOperand op then 1 else 0 :=
    (operandBytes_eq_toNat_takesOperand op).trans (Bool.cond_eq_ite ..)
  rw [wellFormedBytes, Bool.and_eq_true, beq_iff_eq, hcount, Ne, select_illegal_iff, Bool.not_eq_false]

theorem exists_decode_of_wellFormedBytes {bytes : List Byte} (hwf : wellFormedBytes bytes = true) :
    ∃ i, decode bytes = .ok (i, []) := by
  cases bytes with
  | nil => cases hwf
  | cons op operands =>
    obtain ⟨hlegal, hlength⟩ := (wellFormedBytes_cons_iff op operands).mp hwf
    cases hop : select op with
    | f0 i =>
      rw [operandBytes_of_f0 hop] at hlength
      obtain rfl := List.length_eq_zero_iff.mp hlength
      exact ⟨i, decode_of_f0 hop []⟩
    | f1 withOperand =>
      rw [operandBytes_of_f1 hop] at hlength
      obtain ⟨x, rfl⟩ := List.length_eq_one_iff.mp hlength
      exact ⟨withOperand x, decode_of_f1 hop x []⟩
    | illegal => exact absurd hop hlegal

/-- Settles O9: a well-formed sequence is one that its opcode byte's format lets decode, and what decodes with nothing
left over is an encoding. -/
theorem decoderAcceptsWellFormedBytesOnly : Obligations.DecoderAcceptsWellFormedBytesOnly := by
  intro bytes
  constructor
  · exact exists_decode_of_wellFormedBytes
  · rintro ⟨i, hdecode⟩
    rw [decode_eq_ok_iff.mp hdecode, List.append_nil]
    exact wellFormedBytes_encode i

theorem decode_eq_invalidOpcode_iff (op : Byte) (rest : List Byte) :
    decode (op :: rest) = .error (.invalidOpcode op) ↔ select op = .illegal := by
  constructor
  · intro hdecode
    cases hop : select op with
    | f0 i =>
      rw [decode_of_f0 hop] at hdecode
      cases hdecode
    | f1 withOperand =>
      cases rest with
      | nil =>
        rw [decode_of_f1_nil hop] at hdecode
        cases hdecode
      | cons x rest =>
        rw [decode_of_f1 hop] at hdecode
        cases hdecode
    | illegal => rfl
  · intro hop
    exact decode_of_illegal hop rest

/-- Settles O10: the rejected bytes are those that select nothing, and the core fetches no operand after one. -/
theorem illegalBytesAreRejectedByName : Obligations.IllegalBytesAreRejectedByName := by
  refine ⟨fun op rest => ?rejected, fun s hlow hhigh => ?consumed⟩
  case rejected => rw [decode_eq_invalidOpcode_iff, select_illegal_iff_range]
  case consumed =>
    have hop : select (s.memRead s.pc) = .illegal := (select_illegal_iff_range _).mpr ⟨hlow, hhigh⟩
    exact Machine.State.fetchInstr_one (operandBytes_of_illegal hop)

/-- Settles O11: each word is a literal, so the decoder evaluates it. -/
theorem tableWordsDecodeRight : Obligations.TableWordsDecodeRight :=
  ⟨rfl, rfl, rfl, rfl, rfl, rfl, rfl, rfl, rfl, rfl⟩

end Sys2Proof
end


section
/-! SUPPORT. The step of the instruction that the bytes at PC decode to (`40_control.md` R70, R71). -/

namespace Sys2Proof

/-- The opcode byte of an instruction is the head of its encoding. -/
theorem encode_head_of_decode {op x : Byte} {i : Instr} {rest : List Byte} (hdecode : decode [op, x] = .ok (i, rest)) :
    (encode i).head? = some op := by
  obtain ⟨_, hop, hbytes⟩ | ⟨_, _, _, hop, rfl, hbytes⟩ := decode_eq_ok_cases hdecode
  · cases hbytes
    rw [select_f0_cases hop]
    rfl
  · cases hbytes
    rw [select_f1_cases hop]
    rfl

/-- Two bytes are enough for any legal opcode byte. -/
theorem decode_pair_or_illegal (op x : Byte) : (∃ i rest, decode [op, x] = .ok (i, rest)) ∨ select op = .illegal := by
  cases hop : select op with
  | f0 i => exact .inl ⟨i, [x], decode_of_f0 hop [x]⟩
  | f1 withOperand => exact .inl ⟨withOperand x, [], decode_of_f1 hop x []⟩
  | illegal => exact .inr rfl

end Sys2Proof

namespace Sys2Proof.Machine

variable {s : State} {i : Instr} {rest : List Byte}

theorem step_of_decode (hrun : s.halted = false)
    (hdecode : decode [s.memRead s.pc, s.memRead (s.pc + 1)] = .ok (i, rest)) :
    step s = exec i { s with pc := s.pc + BitVec.ofNat 8 i.length } := by
  obtain ⟨_, hop, hbytes⟩ | ⟨_, withOperand, _, hop, rfl, hbytes⟩ := decode_eq_ok_cases hdecode
  · cases hbytes
    rw [length_of_f0 hop]
    exact step_of_f0 hrun hop
  · cases hbytes
    rw [length_of_f1 hop]
    exact step_of_f1 hrun hop

/-- Everything a step that goes on can have been (`40_control.md` R70, `70_reset_and_hazards.md` R143). -/
theorem step_eq_next_cases {t : State} (hstep : step s = .next t) :
    (s.halted = true ∧ t = s) ∨
    (s.halted = false ∧ ∃ i rest, decode [s.memRead s.pc, s.memRead (s.pc + 1)] = .ok (i, rest) ∧
      exec i { s with pc := s.pc + BitVec.ofNat 8 i.length } = .next t) := by
  obtain hhalted | hrun := Bool.eq_false_or_eq_true s.halted
  · exact .inl ⟨hhalted, Host.Outcome.next.inj (hstep.symm.trans (step_of_halted hhalted))⟩
  · obtain ⟨i, rest, hdecode⟩ | hop := decode_pair_or_illegal (s.memRead s.pc) (s.memRead (s.pc + 1))
    · exact .inr ⟨hrun, i, rest, hdecode, (step_of_decode hrun hdecode).symm.trans hstep⟩
    · cases (step_of_illegal hrun hop).symm.trans hstep

/-- Settles O12, by the format of the opcode byte. -/
theorem stepRunsDecodedInstruction : Obligations.StepRunsDecodedInstruction :=
  fun _ _ _ _ => step_of_decode

/-! ### A placed table word -/

theorem State.withFetchWord_memRead_pc (s : State) (nbits w : Nat) :
    (s.withFetchWord nbits w).memRead s.pc = BitVec.ofNat 8 (w % 2 ^ nbits) := by
  simp [withFetchWord, tableBytes]

theorem State.withFetchWord_memRead_pc_add_one (s : State) (nbits w : Nat) :
    (s.withFetchWord nbits w).memRead (s.pc + 1) = BitVec.ofNat 8 (w % 2 ^ nbits / 256) := by
  simp [withFetchWord, tableBytes]

theorem decode_of_decodeTableWord {nbits w : Nat} (hword : decodeTableWord nbits w = some i) :
    ∃ rest, decode (tableBytes nbits w) = .ok (i, rest) := by
  rw [decodeTableWord] at hword
  split at hword
  · cases hword
    exact ⟨_, ‹_›⟩
  · cases hword

/-- Settles O13: the two cells at PC hold the word's bytes, the first untouched by the write of the second. -/
theorem placedWordIsRunByNextStep : Obligations.PlacedWordIsRunByNextStep := by
  intro s nbits w i hword
  obtain ⟨rest, hdecode⟩ := decode_of_decodeTableWord hword
  rw [tableBytes, ← s.withFetchWord_memRead_pc, ← s.withFetchWord_memRead_pc_add_one] at hdecode
  exact step_of_decode (s := s.withFetchWord nbits w) rfl hdecode

/-! ### PC after a step -/

theorem add_ofNat_toNat (x : Byte) (k : Nat) : (x + BitVec.ofNat 8 k).toNat = (x.toNat + k) % 256 := by
  simp

/-- Settles O14: PC is past the instruction's bytes when its meaning starts, and stays there but for a jump. -/
theorem pcAfterEachStep : Obligations.PcAfterEachStep := by
  intro s t i rest hrun hdecode hstep
  have hnext := (step_of_decode hrun hdecode).symm.trans hstep
  cases i with
  | jmp addr =>
    obtain rfl := Host.Outcome.next.inj hnext
    rfl
  | jz addr | jc addr =>
    obtain rfl := Host.Outcome.next.inj hnext
    dsimp only
    rw [State.jumpIf_pc]
    split
    · rfl
    · exact add_ofNat_toNat s.pc 2
  | nop | ldiA x | ldiB x | lda x | sta x | addB | subB | andB | orB | xorB | notA | input | output | hlt =>
    have hpc := exec_pc_of_not_jump hnext (by simp)
    exact (congrArg BitVec.toNat hpc).trans (add_ofNat_toNat s.pc _)

/-- Settles O6: the step is one write of A, so any state with that memory reads A in the cell written, by either
fetch. -/
theorem storeIsSeenByNextFetch : Obligations.StoreIsSeenByNextFetch := by
  intro s hrun hop
  refine ⟨_, (step_of_f1_opcode rfl hrun hop).trans (exec_sta _ _), fun u hmem hpc => ?opcode,
    fun u hmem hpc htakes => ?operand⟩
  case opcode =>
    rw [State.fetch_fst, hpc]
    exact State.memRead_of_mem_eq_memWrite hmem
  case operand =>
    rw [State.fetchInstr_of_takesOperand htakes, hpc, State.memRead_of_mem_eq_memWrite hmem]

end Sys2Proof.Machine
end


section
/-! SUPPORT. The machine invariant and the canonical form of memory (`10_state.md` R16, R23; log entry 3). -/

namespace Sys2Proof.Machine

/-- Settles O2: no cell is listed and no flag is set. -/
theorem resetMeetsMachineInvariant : Obligations.ResetMeetsMachineInvariant :=
  ⟨rfl, fun ⟨hzero, _⟩ => Bool.false_ne_true hzero⟩

/-- The byte 0 is not negative, so the flag unit never sets both flags (R16). -/
theorem flagsFrom_not_zero_and_negative (v : Byte) (carry : Nat) :
    ¬((flagsFrom v.toNat carry).z = true ∧ (flagsFrom v.toNat carry).n = true) := by
  rw [flagsFrom_z, flagsFrom_n, beq_iff_eq]
  rintro ⟨rfl, hnegative⟩
  exact absurd hnegative (by decide)

namespace State

variable {s : State}

/-! ### The shared updates keep the invariant -/

theorem inv_memWrite (hinv : s.inv) (addr v : Byte) : (s.memWrite addr v).inv :=
  ⟨Memory.wf_write hinv.1 addr v, hinv.2⟩

theorem inv_setAWithFlags (hinv : s.inv) (v : Byte) (carry : Nat) : (s.setAWithFlags v carry).inv :=
  ⟨hinv.1, flagsFrom_not_zero_and_negative v carry⟩

theorem inv_setBWithFlags (hinv : s.inv) (v : Byte) (carry : Nat) : (s.setBWithFlags v carry).inv :=
  ⟨hinv.1, flagsFrom_not_zero_and_negative v carry⟩

theorem inv_jumpIf (hinv : s.inv) (condition : Bool) (target : Byte) : (s.jumpIf condition target).inv := by
  rw [jumpIf_eq]
  exact hinv

end State

theorem exec_keeps_inv {i : Instr} {s t : State} (hinv : s.inv) (hnext : exec i s = .next t) : t.inv := by
  cases i with
  | ldiA imm | lda addr | addB | subB | andB | orB | xorB | notA | input =>
    obtain rfl := Host.Outcome.next.inj hnext
    exact State.inv_setAWithFlags hinv _ _
  | ldiB imm =>
    obtain rfl := Host.Outcome.next.inj hnext
    exact State.inv_setBWithFlags hinv _ _
  | sta addr =>
    obtain rfl := Host.Outcome.next.inj hnext
    exact State.inv_memWrite hinv _ _
  | jz addr | jc addr =>
    obtain rfl := Host.Outcome.next.inj hnext
    exact State.inv_jumpIf hinv _ _
  | nop | jmp addr | output | hlt =>
    obtain rfl := Host.Outcome.next.inj hnext
    exact hinv

/-- The invariant does not speak of PC, so the fetch keeps it and the meaning does the rest. -/
theorem step_keeps_inv {s t : State} (hinv : s.inv) (hstep : step s = .next t) : t.inv := by
  obtain ⟨_, rfl⟩ | ⟨_, i, _, _, hnext⟩ := step_eq_next_cases hstep
  · exact hinv
  · have hfetched : ({ s with pc := s.pc + BitVec.ofNat 8 i.length } : State).inv := hinv
    exact exec_keeps_inv hfetched hnext

theorem fault_keeps_inv {s t : State} {op : Byte} (hinv : s.inv) (hstep : step s = .fault (.invalidOpcode op t)) :
    t.inv := by
  obtain ⟨_, _, hfault⟩ := (step_eq_fault_iff ..).mp hstep
  cases hfault
  exact hinv

/-- Settles O3: a next state is the meaning's, which keeps the invariant; in a fault's state PC alone has moved. -/
theorem stepKeepsMachineInvariant : Obligations.StepKeepsMachineInvariant :=
  fun _ hinv => ⟨fun _ => step_keeps_inv hinv, fun _ _ => fault_keeps_inv hinv⟩

namespace Memory

/-! ### A canonical list is fixed by what it reads -/

theorem lookup_cons_self (k : Nat) (v : Byte) (m : Memory) : lookup ((k, v) :: m) k = v := if_pos rfl

theorem lookup_cons_ne {j k : Nat} (hne : j ≠ k) (v : Byte) (m : Memory) :
    lookup ((j, v) :: m) k = lookup m k := if_neg hne

/-- Below the first address that may be listed, every cell is unlisted. -/
theorem lookup_of_lt {low k : Nat} {m : Memory} (hwf : wfFrom low m = true) (hlt : k < low) :
    m.lookup k = unlisted := by
  induction m generalizing low with
  | nil => rfl
  | cons head rest ih =>
    obtain ⟨j, v⟩ := head
    obtain ⟨hlow, _, _, hrest⟩ := (wfFrom_cons ..).mp hwf
    rw [lookup_cons_ne (by omega)]
    exact ih hrest (by omega)

/-- The first listed cell is the first one that does not read as unlisted, so it bounds every other such cell. -/
theorem head_le_of_lookup_ne {low j k : Nat} {v : Byte} {m : Memory} (hwf : wfFrom low ((j, v) :: m) = true)
    (hlisted : lookup ((j, v) :: m) k ≠ unlisted) : j ≤ k := by
  obtain ⟨_, hj, hv, hrest⟩ := (wfFrom_cons ..).mp hwf
  by_contra hlt
  have hfrom : wfFrom j ((j, v) :: m) = true := (wfFrom_cons ..).mpr ⟨Nat.le_refl j, hj, hv, hrest⟩
  exact hlisted (lookup_of_lt hfrom (by omega))

theorem lookup_head_ne {low j : Nat} {v : Byte} {m : Memory} (hwf : wfFrom low ((j, v) :: m) = true) :
    lookup ((j, v) :: m) j ≠ unlisted := by
  obtain ⟨_, _, hv, _⟩ := (wfFrom_cons ..).mp hwf
  rwa [lookup_cons_self]

theorem wfFrom_tail {low j : Nat} {v : Byte} {m : Memory} (hwf : wfFrom low ((j, v) :: m) = true) :
    wfFrom (j + 1) m = true := by
  obtain ⟨_, _, _, hrest⟩ := (wfFrom_cons ..).mp hwf
  exact hrest

theorem eq_of_lookup_eq {m m' : Memory} {low low' : Nat} (hwf : wfFrom low m = true) (hwf' : wfFrom low' m' = true)
    (hread : ∀ k, m.lookup k = m'.lookup k) : m = m' := by
  induction m generalizing m' low low' with
  | nil =>
    cases m' with
    | nil => rfl
    | cons head' rest' => exact absurd (hread head'.1).symm (lookup_head_ne hwf')
  | cons head rest ih =>
    obtain ⟨j, v⟩ := head
    cases m' with
    | nil => exact absurd (hread j) (lookup_head_ne hwf)
    | cons head' rest' =>
      obtain ⟨j', v'⟩ := head'
      have hle : j' ≤ j := head_le_of_lookup_ne hwf' (hread j ▸ lookup_head_ne hwf)
      have hle' : j ≤ j' := head_le_of_lookup_ne hwf ((hread j').symm ▸ lookup_head_ne hwf')
      obtain rfl : j = j' := by omega
      have hv : v = v' := by simpa only [lookup_cons_self] using hread j
      have hrest : rest = rest' := by
        refine ih (wfFrom_tail hwf) (wfFrom_tail hwf') fun k => ?_
        by_cases hjk : j = k
        · rw [lookup_of_lt (wfFrom_tail hwf) (by omega), lookup_of_lt (wfFrom_tail hwf') (by omega)]
        · simpa only [lookup_cons_ne hjk] using hread k
      rw [hv, hrest]

/-- No listed address lies outside the 256 cells. -/
theorem lookup_of_memSize_le {low k : Nat} {m : Memory} (hwf : wfFrom low m = true) (hk : Config.memSize ≤ k) :
    m.lookup k = unlisted := by
  induction m generalizing low with
  | nil => rfl
  | cons head rest ih =>
    obtain ⟨j, v⟩ := head
    obtain ⟨_, hj, _, hrest⟩ := (wfFrom_cons ..).mp hwf
    rw [lookup_cons_ne (by omega)]
    exact ih hrest

theorem lookup_eq_of_read_eq {m m' : Memory} (hwf : m.wf = true) (hwf' : m'.wf = true)
    (hread : ∀ addr, m.read addr = m'.read addr) (k : Nat) : m.lookup k = m'.lookup k := by
  by_cases hk : k < Config.memSize
  · have hk : (BitVec.ofNat 8 k).toNat = k := (BitVec.toNat_ofNat ..).trans (Nat.mod_eq_of_lt hk)
    simpa only [read, hk] using hread (BitVec.ofNat 8 k)
  · rw [lookup_of_memSize_le hwf (by omega), lookup_of_memSize_le hwf' (by omega)]

/-- Settles O7: the first listed cell is the first that does not read 0, so two canonical lists that read alike have
the same head, and by induction the same tail. -/
theorem canonicalMemoryIsUnique : Obligations.CanonicalMemoryIsUnique :=
  fun _ _ hwf hwf' hread => eq_of_lookup_eq hwf hwf' (lookup_eq_of_read_eq hwf hwf' hread)

end Memory

end Sys2Proof.Machine
end


section
/-! SUPPORT. The bounded run (`70_reset_and_hazards.md` R142 to R144). -/

namespace Sys2Proof.Machine

/-! ### The loop, turn by turn -/

/-- What one turn of the loop meets: a halted core, a step that goes on, or a fault. -/
theorem turn_cases (s : State) :
    s.halted = true ∨ (s.halted = false ∧ ∃ t, step s = .next t) ∨ (s.halted = false ∧ ∃ f, step s = .fault f) := by
  obtain hhalted | hrun := Bool.eq_false_or_eq_true s.halted
  · exact .inl hhalted
  · obtain hnext | ⟨_, _, hfault⟩ := step_next_or_illegal s
    · exact .inr (.inl ⟨hrun, hnext⟩)
    · exact .inr (.inr ⟨hrun, _, hfault⟩)

/-- A run's answer with more steps counted; a fault delivers no count (decision D4). -/
def countMore (more : Nat) : Host.Outcome (Nat × State) Fault Refusal → Host.Outcome (Nat × State) Fault Refusal
  | .next (count, t) => .next (more + count, t)
  | .fault f => .fault f
  | .refused r => .refused r

/-- The steps behind a loop only add to its count. -/
theorem runFrom_add (more count n : Nat) (s : State) :
    runFrom (more + count) n s = countMore more (runFrom count n s) := by
  induction n generalizing count s with
  | zero => rfl
  | succ n ih =>
    obtain hhalted | ⟨hrun, t, hstep⟩ | ⟨hrun, f, hstep⟩ := turn_cases s
    · rw [runFrom_of_halted hhalted, runFrom_of_halted hhalted]
      rfl
    · rw [runFrom_of_next hrun hstep, runFrom_of_next hrun hstep]
      exact ih (count + 1) t
    · rw [runFrom_of_fault hrun hstep, runFrom_of_fault hrun hstep]
      rfl

theorem runFrom_eq_countMore_run (count n : Nat) (s : State) : runFrom count n s = countMore count (run n s) :=
  runFrom_add count 0 n s

theorem run_succ_of_next {s t : State} (hrun : s.halted = false) (hstep : step s = .next t) (n : Nat) :
    run (n + 1) s = countMore 1 (run n t) :=
  (runFrom_of_next hrun hstep 0 n).trans (runFrom_eq_countMore_run 1 n t)

theorem run_succ_of_fault {s : State} {f : Fault} (hrun : s.halted = false) (hstep : step s = .fault f) (n : Nat) :
    run (n + 1) s = .fault f :=
  runFrom_of_fault hrun hstep 0 n

/-- Settles O44: a step that goes on leaves the loop one step behind it, which only adds to the count. -/
theorem runFollowsTheLoop : Obligations.RunFollowsTheLoop := by
  refine ⟨fun _ => rfl, fun n _ hhalted => run_of_halted hhalted n,
    fun n s t hrun hstep => ⟨fun count u hcontinued => ?counted, fun f hcontinued => ?faulted⟩,
    fun n _ _ hrun hstep => run_succ_of_fault hrun hstep n⟩
  case counted =>
    rw [run_succ_of_next hrun hstep, hcontinued, Nat.add_comm]
    rfl
  case faulted =>
    rw [run_succ_of_next hrun hstep, hcontinued]
    rfl

/-! ### Two runs in a row -/

/-- What a loop that ended without a fault does with more budget: it goes on from where it ended. -/
theorem runFrom_add_budget_of_next {k m count : Nat} {s t : State} (hended : runFrom k m s = .next (count, t))
    (n : Nat) : runFrom k (m + n) s = runFrom count n t := by
  induction m generalizing k s with
  | zero =>
    cases hended
    rw [Nat.zero_add]
  | succ m ih =>
    rw [Nat.add_right_comm]
    obtain hhalted | ⟨hrun, u, hstep⟩ | ⟨hrun, f, hstep⟩ := turn_cases s
    · rw [runFrom_of_halted hhalted] at hended ⊢
      cases hended
      rw [runFrom_of_halted hhalted]
    · rw [runFrom_of_next hrun hstep] at hended ⊢
      exact ih hended
    · cases (runFrom_of_fault hrun hstep k m).symm.trans hended

theorem runFrom_add_budget_of_fault {k m : Nat} {s : State} {f : Fault} (hended : runFrom k m s = .fault f)
    (n : Nat) : runFrom k (m + n) s = .fault f := by
  induction m generalizing k s with
  | zero => cases hended
  | succ m ih =>
    rw [Nat.add_right_comm]
    obtain hhalted | ⟨hrun, u, hstep⟩ | ⟨hrun, g, hstep⟩ := turn_cases s
    · cases (runFrom_of_halted hhalted k (m + 1)).symm.trans hended
    · rw [runFrom_of_next hrun hstep] at hended ⊢
      exact ih hended
    · rw [runFrom_of_fault hrun hstep] at hended ⊢
      exact hended

theorem run_add_of_next {m count : Nat} {s t : State} (hended : run m s = .next (count, t)) (n : Nat) :
    run (m + n) s = countMore count (run n t) :=
  (runFrom_add_budget_of_next hended n).trans (runFrom_eq_countMore_run count n t)

/-- Settles O45: the longer budget goes on where the first run ended, with its steps counted. -/
theorem runsCompose : Obligations.RunsCompose := by
  refine fun m n s => ⟨fun count t hended =>
    ⟨fun count' u hcontinued => ?counted, fun f hcontinued => ?faulted⟩,
    fun f hended => runFrom_add_budget_of_fault hended n⟩
  case counted | faulted =>
    rw [run_add_of_next hended, hcontinued]
    rfl

theorem run_add_of_finished {m count : Nat} {s t : State} (hended : run m s = .next (count, t))
    (hhalted : t.halted = true) (n : Nat) : run (m + n) s = .next (count, t) := by
  rw [run_add_of_next hended, run_of_halted hhalted]
  rfl

/-- Settles O47: what is left of the budget runs on a halted core. -/
theorem largerBudgetFinishesAlike : Obligations.LargerBudgetFinishesAlike :=
  ⟨fun _ m _ _ _ hended hhalted => run_add_of_finished hended hhalted m,
   fun _ m _ ⟨count, t, hended, hhalted⟩ =>
    have hlonger := run_add_of_finished hended hhalted m
    ⟨⟨count, t, hlonger, hhalted⟩, ⟨count, t, hlonger⟩⟩⟩

/-! ### Where a run comes to its end -/

/-- What every step keeps holds where a loop ends, or where the step that faulted began. -/
theorem runFrom_ends {P : State → Prop} (hkeep : ∀ s t, P s → step s = .next t → P t) {s : State} (hstart : P s)
    (k n : Nat) :
    (∃ count t, runFrom k n s = .next (count, t) ∧ P t) ∨
    (∃ f u, runFrom k n s = .fault f ∧ step u = .fault f ∧ P u) := by
  induction n generalizing k s with
  | zero => exact .inl ⟨k, s, rfl, hstart⟩
  | succ n ih =>
    obtain hhalted | ⟨hrun, t, hstep⟩ | ⟨hrun, f, hstep⟩ := turn_cases s
    · exact .inl ⟨k, s, runFrom_of_halted hhalted k (n + 1), hstart⟩
    · rw [runFrom_of_next hrun hstep]
      exact ih (hkeep s t hstart hstep) (k + 1)
    · exact .inr ⟨f, s, runFrom_of_fault hrun hstep k n, hstep, hstart⟩

theorem run_next_keeps {P : State → Prop} (hkeep : ∀ s t, P s → step s = .next t → P t) {n count : Nat} {s t : State}
    (hstart : P s) (hended : run n s = .next (count, t)) : P t := by
  obtain ⟨_, _, hnext, ht⟩ | ⟨_, _, hfault, _⟩ := runFrom_ends hkeep hstart 0 n
  · cases hnext.symm.trans hended
    exact ht
  · cases hfault.symm.trans hended

theorem run_fault_keeps {P : State → Prop} (hkeep : ∀ s t, P s → step s = .next t → P t) {n : Nat} {s : State}
    {f : Fault} (hstart : P s) (hended : run n s = .fault f) : ∃ u, step u = .fault f ∧ P u := by
  obtain ⟨_, _, hnext, _⟩ | ⟨_, u, hfault, hu⟩ := runFrom_ends hkeep hstart 0 n
  · cases hnext.symm.trans hended
  · cases hfault.symm.trans hended
    exact ⟨u, hu⟩

theorem run_next_or_fault (n : Nat) (s : State) :
    (∃ count t, run n s = .next (count, t)) ∨ (∃ op t, run n s = .fault (.invalidOpcode op t)) := by
  obtain ⟨count, t, hnext, _⟩ | ⟨⟨op, t⟩, _, hfault, _⟩ :=
    runFrom_ends (P := fun _ => True) (fun _ _ _ _ => trivial) (s := s) trivial 0 n
  · exact .inl ⟨count, t, hnext⟩
  · exact .inr ⟨op, t, hfault⟩

/-- The count starts at `k`, rises by one a turn, and falls short of the budget on a halted core only. -/
theorem runFrom_count {k n count : Nat} {s t : State} (hended : runFrom k n s = .next (count, t)) :
    k ≤ count ∧ count ≤ k + n ∧ (t.halted = false → count = k + n) := by
  induction n generalizing k s with
  | zero =>
    cases hended
    exact ⟨Nat.le_refl _, Nat.le_refl _, fun _ => rfl⟩
  | succ n ih =>
    obtain hhalted | ⟨hrun, u, hstep⟩ | ⟨hrun, f, hstep⟩ := turn_cases s
    · cases (runFrom_of_halted hhalted k (n + 1)).symm.trans hended
      exact ⟨Nat.le_refl _, Nat.le_add_right .., fun hrun => absurd (hrun.symm.trans hhalted) Bool.false_ne_true⟩
    · obtain ⟨hlow, hhigh, heq⟩ := ih ((runFrom_of_next hrun hstep k n).symm.trans hended)
      exact ⟨by omega, by omega, fun ht => by rw [heq ht]; omega⟩
    · cases (runFrom_of_fault hrun hstep k n).symm.trans hended

/-- A core that a run halts was not halted when it began, so at least one step was executed. -/
theorem run_count_pos {n count : Nat} {s t : State} (hrun : s.halted = false) (hhalted : t.halted = true)
    (hended : run n s = .next (count, t)) : 0 < count := by
  cases n with
  | zero =>
    cases hended
    exact absurd (hrun.symm.trans hhalted) Bool.false_ne_true
  | succ n =>
    obtain hnot | ⟨_, u, hstep⟩ | ⟨_, f, hstep⟩ := turn_cases s
    · exact absurd (hrun.symm.trans hnot) Bool.false_ne_true
    · obtain ⟨hlow, _⟩ := runFrom_count ((runFrom_of_next hrun hstep 0 n).symm.trans hended)
      exact hlow
    · cases (run_succ_of_fault hrun hstep n).symm.trans hended

/-- The core, if it is halted, has a HLT byte just before PC. -/
def State.PastHltIfHalted (s : State) : Prop := s.halted = true → s.memRead (s.pc - 1) = 0xFF#8

/-- HLT alone sets `halted` (`10_state.md` R18). -/
theorem exec_halted {i : Instr} {s t : State} (hnext : exec i s = .next t) :
    t.halted = (s.halted || decide (i = .hlt)) := by
  cases i with
  | hlt =>
    obtain rfl := Host.Outcome.next.inj hnext
    simp
  | jz addr | jc addr =>
    obtain rfl := Host.Outcome.next.inj hnext
    simp
  | nop | ldiA imm | ldiB imm | lda addr | sta addr | addB | subB | andB | orB | xorB | notA | jmp addr | input
  | output =>
    obtain rfl := Host.Outcome.next.inj hnext
    exact (Bool.or_false _).symm

theorem step_keeps_pastHltIfHalted (s t : State) (hpast : s.PastHltIfHalted) (hstep : step s = .next t) :
    t.PastHltIfHalted := by
  obtain ⟨_, rfl⟩ | ⟨hrun, i, rest, hdecode, hnext⟩ := step_eq_next_cases hstep
  · exact hpast
  · intro hhalted
    have hset : (s.halted || decide (i = .hlt)) = true := (exec_halted hnext).symm.trans hhalted
    obtain rfl : i = .hlt := by simpa [hrun] using hset
    obtain rfl := Host.Outcome.next.inj hnext
    have hop : 0xFF#8 = s.memRead s.pc := Option.some.inj (encode_head_of_decode hdecode)
    have hpc : s.pc + BitVec.ofNat 8 Instr.hlt.length - 1 = s.pc := BitVec.add_sub_cancel s.pc 1
    exact (congrArg s.memRead hpc).trans hop.symm

/-- Settles O46: the count by the turns of the loop, the HLT byte by an invariant of the steps, and a run's fault as the
fault of one of its steps. -/
theorem runEndsInOneOfThreeWays : Obligations.RunEndsInOneOfThreeWays := by
  intro n s
  obtain ⟨count, t, hended⟩ | ⟨op, t, hended⟩ := run_next_or_fault n s
  · obtain ⟨_, hle, heq⟩ := runFrom_count hended
    rw [Nat.zero_add] at hle heq
    refine .inl ⟨count, t, hended, hle, heq, fun hrun hhalted => ⟨run_count_pos hrun hhalted hended, ?_⟩⟩
    have hstart : s.PastHltIfHalted := fun hnot => absurd (hrun.symm.trans hnot) Bool.false_ne_true
    exact run_next_keeps step_keeps_pastHltIfHalted hstart hended hhalted
  · obtain ⟨u, hstep, _⟩ := run_fault_keeps (P := fun _ => True) (fun _ _ _ _ => trivial) trivial hended
    obtain ⟨hrun, hop, hfault⟩ := (step_eq_fault_iff ..).mp hstep
    cases hfault
    have hpc : u.pc + 1 - 1 = u.pc := BitVec.add_sub_cancel u.pc 1
    exact .inr ⟨_, _, hended, hrun, (congrArg u.memRead hpc).symm, (select_illegal_iff_range _).mp hop⟩

/-- Settles O43: HLT alone sets the bit, and on a halted core no step is performed. -/
theorem haltedIsMonotone : Obligations.HaltedIsMonotone := by
  refine ⟨rfl, fun _ _ _ => exec_halted, fun s hhalted => ⟨step_of_halted hhalted, run_of_halted hhalted⟩,
    fun n s count t hended hhalted => ?kept⟩
  case kept =>
    cases (run_of_halted hhalted n).symm.trans hended
    exact hhalted

/-! ### Unprogrammed memory -/

theorem add_one_add_ofNat (x : Byte) (k : Nat) : x + 1 + BitVec.ofNat 8 k = x + BitVec.ofNat 8 (k + 1) := by
  rw [BitVec.add_assoc, BitVec.add_comm 1, BitVec.ofNat_add]
  rfl

theorem run_of_zero_cells {n : Nat} {s : State} (hrun : s.halted = false)
    (hzero : ∀ k, k < n → s.memRead (s.pc + BitVec.ofNat 8 k) = 0) :
    run n s = .next (n, { s with pc := s.pc + BitVec.ofNat 8 n }) := by
  induction n generalizing s with
  | zero =>
    have hpc : s.pc + BitVec.ofNat 8 0 = s.pc := BitVec.add_zero s.pc
    rw [hpc]
    rfl
  | succ n ih =>
    have hop : s.memRead s.pc = 0x00#8 := by simpa using hzero 0 (Nat.succ_pos n)
    have hrest : ∀ k, k < n → s.memRead (s.pc + 1 + BitVec.ofNat 8 k) = 0 := fun k hk => by
      rw [add_one_add_ofNat]
      exact hzero (k + 1) (Nat.succ_lt_succ hk)
    rw [run_succ_of_next hrun (step_of_nop hrun hop), ih (s := { s with pc := s.pc + 1 }) hrun hrest,
      ← add_one_add_ofNat, Nat.add_comm]
    rfl

/-- Settles O48, by induction on the budget: each turn is a NOP, after which one zero cell fewer lies ahead. -/
theorem unprogrammedMemoryRunsNops : Obligations.UnprogrammedMemoryRunsNops :=
  fun _ _ => run_of_zero_cells

end Sys2Proof.Machine
end


section
/-! SUPPORT. The image load and the host's moves (`20_memory.md` R44, `70_reset_and_hazards.md` R140 to R147). -/

namespace Sys2Proof.Machine

/-! ### The image load -/

namespace State

/-- A load writes memory alone. -/
theorem loadImage_eq_with_mem (s : State) (base : Byte) (image : List Byte) :
    s.loadImage base image = { s with mem := (s.loadImage base image).mem } := by
  induction image generalizing s base with
  | nil => rfl
  | cons b rest ih => exact ih (s.memWrite base b) (base + 1)

theorem loadImage_memRead_of_untouched {s : State} {base x : Byte} {image : List Byte}
    (huntouched : ∀ k, k < image.length → x ≠ base + BitVec.ofNat 8 k) :
    (s.loadImage base image).memRead x = s.memRead x := by
  induction image generalizing s base with
  | nil => rfl
  | cons b rest ih =>
    have hbase : x ≠ base := by simpa using huntouched 0 (Nat.succ_pos _)
    have hrest : ∀ k, k < rest.length → x ≠ base + 1 + BitVec.ofNat 8 k := fun k hk => by
      rw [add_one_add_ofNat]
      exact huntouched (k + 1) (Nat.succ_lt_succ hk)
    rw [loadImage_cons, ih hrest, memRead_memWrite, if_neg hbase]

/-- A byte at another offset modulo 256 lies in another cell. -/
theorem ne_add_ofNat {base : Byte} {k : Nat} (hk : k % 256 ≠ 0) : base ≠ base + BitVec.ofNat 8 k := by
  intro heq
  have hzero : BitVec.ofNat 8 k = 0#8 := by simpa using heq
  exact hk (by simpa using congrArg BitVec.toNat hzero)

theorem loadImage_memRead_of_last {s : State} {base : Byte} {image : List Byte} {k : Nat} (hk : k < image.length)
    (hlast : ∀ j, k < j → j < image.length → (j - k) % 256 ≠ 0) :
    (s.loadImage base image).memRead (base + BitVec.ofNat 8 k) = image[k] := by
  induction image generalizing s base k with
  | nil => cases hk
  | cons b rest ih =>
    cases k with
    | zero =>
      have hrest : ∀ j, j < rest.length → base ≠ base + 1 + BitVec.ofNat 8 j := fun j hj => by
        rw [add_one_add_ofNat]
        exact ne_add_ofNat (hlast (j + 1) (Nat.succ_pos j) (Nat.succ_lt_succ hj))
      have hbase : base + BitVec.ofNat 8 0 = base := BitVec.add_zero base
      rw [hbase, loadImage_cons, loadImage_memRead_of_untouched hrest, memRead_memWrite, if_pos rfl]
      rfl
    | succ k =>
      have hlater : ∀ j, k < j → j < rest.length → (j - k) % 256 ≠ 0 := fun j hkj hj => by
        rw [← Nat.add_sub_add_right j 1 k]
        exact hlast (j + 1) (Nat.succ_lt_succ hkj) (Nat.succ_lt_succ hj)
      rw [loadImage_cons, ← add_one_add_ofNat]
      exact ih (Nat.lt_of_succ_lt_succ hk) hlater

end State

/-- Settles O50, by induction on the image: a byte stays where it went if no later one goes to its cell. -/
theorem imageLoadPlacesEachByte : Obligations.ImageLoadPlacesEachByte :=
  fun s base image => ⟨fun _ => State.loadImage_memRead_of_last,
    fun _ => State.loadImage_memRead_of_untouched, s.loadImage_eq_with_mem base image⟩

/-! ### The moves of the host -/

namespace Session

variable {p q : Session}

/-- Every request is taken: the run goes through or ends in the one fault (`60_exceptions.md` R122). -/
theorem request_ok_cases (p : Session) (n : Nat) (report : Nat → Report) :
    (∃ count t, run n p.core = .next (count, t) ∧
      p.request n report = .ok { p with core := t, started := true, lastResult := some (report count) }) ∨
    (∃ op t, run n p.core = .fault (.invalidOpcode op t) ∧ p.request n report =
      .ok { core := t, started := true, lastResult := some (.invalidOpcode op), everFaulted := true }) := by
  obtain ⟨count, t, hended⟩ | ⟨op, t, hended⟩ := run_next_or_fault n p.core
  · exact .inl ⟨count, t, hended, request_of_next hended report⟩
  · exact .inr ⟨op, t, hended, request_of_fault hended report⟩

theorem request_taken (p : Session) (n : Nat) (report : Nat → Report) :
    ∃ q, p.request n report = .ok q ∧ q.started = true := by
  obtain ⟨_, _, _, hok⟩ | ⟨_, _, _, hok⟩ := p.request_ok_cases n report <;> exact ⟨_, hok, rfl⟩

theorem core_of_request {n : Nat} {report : Nat → Report} (hok : p.request n report = .ok q) :
    (∃ count, run n p.core = .next (count, q.core)) ∨ (∃ op, run n p.core = .fault (.invalidOpcode op q.core)) := by
  obtain ⟨count, t, hended, hanswer⟩ | ⟨op, t, hended, hanswer⟩ := p.request_ok_cases n report
  · cases hanswer.symm.trans hok
    exact .inl ⟨count, hended⟩
  · cases hanswer.symm.trans hok
    exact .inr ⟨op, hended⟩

/-- A request forgets no fault. -/
theorem everFaulted_of_request {n : Nat} {report : Nat → Report} (hok : p.request n report = .ok q)
    (hfaulted : p.everFaulted = true) : q.everFaulted = true := by
  obtain ⟨_, _, _, hanswer⟩ | ⟨_, _, _, hanswer⟩ := p.request_ok_cases n report
  · cases hanswer.symm.trans hok
    exact hfaulted
  · cases hanswer.symm.trans hok
    rfl

/-- Everything a move that is taken can have been (R146, R147). -/
theorem move_ok_cases {m : HostMove} (hok : p.move m = .ok q) :
    (m = .reset ∧ q = afterReset) ∨
    (∃ addr data, m = .load addr data ∧ q = { p with core := p.core.memWrite addr data }) ∨
    (∃ n report, (m = .run n ∨ (m = .step ∧ n = 1)) ∧ p.request n report = .ok q) := by
  cases m with
  | reset =>
    cases hok
    exact .inl ⟨rfl, rfl⟩
  | load addr data =>
    obtain hstarted | hbefore := Bool.eq_false_or_eq_true p.started
    · cases (move_load_after hstarted addr data).symm.trans hok
    · cases (move_load_before hbefore addr data).symm.trans hok
      exact .inr (.inl ⟨addr, data, rfl, rfl⟩)
  | run n => exact .inr (.inr ⟨n, .ok, .inl rfl, hok⟩)
  | step => exact .inr (.inr ⟨1, fun _ => .stepped, .inr ⟨rfl, rfl⟩, hok⟩)

theorem move_keeps_inv {m : HostMove} (hinv : p.core.inv) (hok : p.move m = .ok q) : q.core.inv := by
  obtain ⟨_, rfl⟩ | ⟨addr, data, _, rfl⟩ | ⟨n, report, _, hrequest⟩ := move_ok_cases hok
  · exact resetMeetsMachineInvariant
  · exact State.inv_memWrite hinv addr data
  · have hkeep : ∀ s t : State, s.inv → step s = .next t → t.inv := fun _ _ => step_keeps_inv
    obtain ⟨_, hended⟩ | ⟨_, hended⟩ := core_of_request hrequest
    · exact run_next_keeps hkeep hinv hended
    · obtain ⟨u, hstep, hu⟩ := run_fault_keeps hkeep hinv hended
      exact fault_keeps_inv hu hstep

theorem moves_keep_inv {ms : List HostMove} (hinv : p.core.inv) (hok : p.moves ms = .ok q) : q.core.inv := by
  induction ms generalizing p with
  | nil =>
    cases hok
    exact hinv
  | cons m rest ih =>
    rw [moves] at hok
    split at hok
    · exact ih (move_keeps_inv hinv ‹_›) hok
    · cases hok

end Session

/-- Settles O54: every move keeps the invariant, the runs because every step and every fault does, and reset meets
it. -/
theorem everyHostMoveKeepsInvariant : Obligations.EveryHostMoveKeepsInvariant :=
  ⟨fun _ _ _ => Session.moves_keep_inv, fun _ _ => Session.moves_keep_inv resetMeetsMachineInvariant⟩

/-- The loads of an image are all taken before the first request, and write what the image load writes. -/
theorem Session.moves_imageMoves {p : Session} (hbefore : p.started = false) (base : Byte) (image : List Byte) :
    p.moves (imageMoves base image) = .ok { p with core := p.core.loadImage base image } := by
  induction image generalizing p base with
  | nil => rfl
  | cons b rest ih =>
    rw [imageMoves, moves, move_load_before hbefore]
    exact ih (p := { p with core := p.core.memWrite base b }) hbefore (base + 1)

/-- Settles O51: a load looks at `started` alone, and a request sets it whatever its run answers. -/
theorem imageIsLoadedBeforeFirstRequest : Obligations.ImageIsLoadedBeforeFirstRequest := by
  refine ⟨Session.moves_imageMoves rfl, fun _ addr data hstarted => Session.move_load_after hstarted addr data,
    fun p m hreset hload => ?requested⟩
  case requested =>
    cases m with
    | reset => exact absurd rfl hreset
    | load addr data => exact absurd rfl (hload addr data)
    | run n => exact p.request_taken n .ok
    | step => exact p.request_taken 1 fun _ => .stepped

/-- Settles O52: a load is one memory write, and a request leaves the core where its run ends, which is where it was
for a halted core. -/
theorem hostWritesNoRegister : Obligations.HostWritesNoRegister := by
  refine ⟨fun p q addr data hok => ?load, fun p q m n hrequest hok => ?request,
    fun p q m hreset hok hhalted => ?halted, fun _ => rfl⟩
  case load =>
    obtain ⟨hmove, _⟩ | ⟨_, _, hmove, rfl⟩ | ⟨_, _, hmove | ⟨hmove, _⟩, _⟩ := Session.move_ok_cases hok <;> cases hmove
    exact ⟨rfl, p.core.memRead_memWrite addr data⟩
  case request =>
    obtain rfl | ⟨rfl, rfl⟩ := hrequest <;> exact Session.core_of_request hok
  case halted =>
    obtain ⟨hmove, _⟩ | ⟨_, _, _, rfl⟩ | ⟨n, _, _, hrequest⟩ := Session.move_ok_cases hok
    · exact absurd hmove hreset
    · rfl
    · obtain ⟨_, hended⟩ | ⟨_, hended⟩ := Session.core_of_request hrequest
      · have hcore := Host.Outcome.next.inj ((run_of_halted hhalted n).symm.trans hended)
        rw [← (Prod.mk.inj hcore).2]
      · cases (run_of_halted hhalted n).symm.trans hended

/-- Settles O53: a load and a request that goes through keep the record, and a faulting one sets it. -/
theorem faultIsRememberedUntilReset : Obligations.FaultIsRememberedUntilReset := by
  refine ⟨fun p q m hreset hok hfaulted => ?remembered,
    fun p n op t hended => ⟨_, Session.request_of_fault hended .ok, rfl, rfl, rfl, rfl, ?unfinished⟩⟩
  case remembered =>
    obtain ⟨hmove, _⟩ | ⟨_, _, _, rfl⟩ | ⟨_, _, _, hrequest⟩ := Session.move_ok_cases hok
    · exact absurd hmove hreset
    · exact hfaulted
    · exact Session.everFaulted_of_request hrequest hfaulted
  case unfinished => exact fun ⟨_, hnever⟩ => Bool.false_ne_true hnever.symm

/-- Settles O58: the answer of the run is what the request's session holds. -/
theorem requestDeliversWhatRunAnswers : Obligations.RequestDeliversWhatRunAnswers :=
  ⟨fun _ _ _ _ hended => ⟨_, Session.request_of_next hended .ok, rfl, rfl, rfl, rfl, rfl, rfl, rfl⟩,
   fun _ _ _ hended => ⟨_, Session.request_of_next hended fun _ => .stepped, rfl, rfl, rfl, rfl, rfl, rfl, rfl⟩⟩

/-- Settles O49: one turn of the loop is one step, and the two moves make the same request with another report. -/
theorem stepRequestIsRunOfOne : Obligations.StepRequestIsRunOfOne := by
  refine ⟨fun s hhalted => ⟨step_of_halted hhalted, run_of_halted hhalted 1⟩, fun _ _ => run_one_of_next,
    fun s f hstep => ?fault, fun p q hok => ?moves⟩
  case fault =>
    obtain ⟨hrun, _⟩ := (step_eq_fault_iff s f).mp hstep
    exact run_succ_of_fault hrun hstep 0
  case moves =>
    obtain ⟨_, _, hended, hanswer⟩ | ⟨_, _, hended, hanswer⟩ := p.request_ok_cases 1 fun _ => .stepped
    · cases hanswer.symm.trans hok
      exact ⟨_, Session.request_of_next hended .ok, rfl, rfl, rfl, rfl, rfl⟩
    · cases hanswer.symm.trans hok
      exact ⟨_, Session.request_of_fault hended .ok, rfl, rfl, rfl, rfl, rfl⟩

end Sys2Proof.Machine
end


section
/-! SUPPORT. The accesses of a step (`20_memory.md` R36; log entry 9). -/

namespace Sys2Proof.Machine

variable {s t : State} {i : Instr} {rest : List Byte}

/-- The bytes of an instruction are read in order, then comes its data access, which the fetch does not change. -/
theorem stepAccesses_of_decode (hrun : s.halted = false)
    (hdecode : decode [s.memRead s.pc, s.memRead (s.pc + 1)] = .ok (i, rest)) :
    stepAccesses s = readsFrom s.pc i.length ++ dataAccesses i s := by
  obtain ⟨_, hop, hbytes⟩ | ⟨_, withOperand, _, hop, rfl, hbytes⟩ := decode_eq_ok_cases hdecode
  · cases hbytes
    rw [length_of_f0 hop]
    exact stepAccesses_of_f0 hrun hop
  · cases hbytes
    rw [length_of_f1 hop]
    exact stepAccesses_of_f1 hrun hop

/-- Settles O55: an instruction's length and its data access give its list, and a step that faults met an opcode byte
without an operand. -/
theorem accessesOfEachInstruction : Obligations.AccessesOfEachInstruction := by
  refine ⟨fun s i rest hrun hdecode => ?instruction, fun s f hstep => ?fault⟩
  case instruction =>
    have haccesses := stepAccesses_of_decode hrun hdecode
    cases i with
    | nop | ldiA imm | ldiB imm | lda addr | sta addr | addB | subB | andB | orB | xorB | notA | jmp addr | jz addr
    | jc addr | input | output | hlt => exact haccesses
  case fault =>
    obtain ⟨hrun, hop, _⟩ := (step_eq_fault_iff s f).mp hstep
    exact stepAccesses_of_illegal hrun hop

/-! ### The writes in the list -/

theorem Memory.after_readsFrom_append (m : Memory) (addr : Byte) (k : Nat) (accesses : List Access) :
    m.after (readsFrom addr k ++ accesses) = m.after accesses := by
  induction k generalizing addr with
  | zero => rfl
  | succ k ih => exact ih (addr + 1)

theorem exec_mem (hnext : exec i s = .next t) : t.mem = s.mem.after (dataAccesses i s) := by
  cases i with
  | jz addr | jc addr =>
    obtain rfl := Host.Outcome.next.inj hnext
    exact State.jumpIf_mem s _ _
  | nop | ldiA imm | ldiB imm | lda addr | sta addr | addB | subB | andB | orB | xorB | notA | jmp addr | input | output
  | hlt =>
    obtain rfl := Host.Outcome.next.inj hnext
    rfl

theorem step_mem (hstep : step s = .next t) : t.mem = s.mem.after (stepAccesses s) := by
  obtain ⟨hhalted, rfl⟩ | ⟨hrun, i, rest, hdecode, hnext⟩ := step_eq_next_cases hstep
  · rw [stepAccesses_of_halted hhalted, Memory.after_nil]
  · rw [stepAccesses_of_decode hrun hdecode, Memory.after_readsFrom_append]
    exact (exec_mem hnext :)

/-- Settles O56: the fetches only read, and the data access is the write of the meaning. -/
theorem stepWritesItsAccessesOnly : Obligations.StepWritesItsAccessesOnly := by
  refine fun s => ⟨fun t => step_mem, fun op t hstep => ?fault⟩
  case fault =>
    obtain ⟨hrun, hop, hfault⟩ := (step_eq_fault_iff ..).mp hstep
    cases hfault
    rw [stepAccesses_of_illegal hrun hop, Memory.after_read, Memory.after_nil]

/-! ### The reads in the list: a step over another memory with the same bytes in the cells read -/

section OtherMemory

variable {m : Memory} (hread : ∀ x, Access.read x ∈ stepAccesses s → m.read x = s.memRead x)
include hread

theorem read_pc_eq_of_agree (hfirst : ∃ accesses, stepAccesses s = .read s.pc :: accesses) :
    m.read s.pc = s.memRead s.pc := by
  obtain ⟨accesses, hlist⟩ := hfirst
  exact hread s.pc (hlist ▸ List.mem_cons_self)

theorem select_illegal_of_agree (hrun : s.halted = false) (hop : select (s.memRead s.pc) = .illegal) :
    select (m.read s.pc) = .illegal := by
  rw [read_pc_eq_of_agree hread ⟨_, stepAccesses_of_illegal hrun hop⟩, hop]

/-- The other memory gives the same instruction; the byte after a one-byte instruction may differ. -/
theorem decode_of_agree (hrun : s.halted = false)
    (hdecode : decode [s.memRead s.pc, s.memRead (s.pc + 1)] = .ok (i, rest)) :
    ∃ rest', decode [m.read s.pc, m.read (s.pc + 1)] = .ok (i, rest') := by
  obtain ⟨_, hop, hbytes⟩ | ⟨_, withOperand, _, hop, rfl, hbytes⟩ := decode_eq_ok_cases hdecode
  · cases hbytes
    rw [read_pc_eq_of_agree hread ⟨_, stepAccesses_of_f0 hrun hop⟩]
    exact ⟨_, decode_of_f0 hop _⟩
  · cases hbytes
    have hlist := stepAccesses_of_f1 hrun hop
    have hoperand : m.read (s.pc + 1) = s.memRead (s.pc + 1) := hread _ (by simp [hlist])
    rw [read_pc_eq_of_agree hread ⟨_, hlist⟩, hoperand]
    exact ⟨_, decode_of_f1 hop _ _⟩

theorem stepAccesses_of_agree : stepAccesses { s with mem := m } = stepAccesses s := by
  obtain hhalted | hrun := Bool.eq_false_or_eq_true s.halted
  · rw [stepAccesses_of_halted hhalted]
    exact stepAccesses_of_halted hhalted
  · obtain ⟨i, rest, hdecode⟩ | hop := decode_pair_or_illegal (s.memRead s.pc) (s.memRead (s.pc + 1))
    · obtain ⟨rest', hdecode'⟩ := decode_of_agree hread hrun hdecode
      rw [stepAccesses_of_decode hrun hdecode]
      exact stepAccesses_of_decode (s := { s with mem := m }) hrun hdecode'
    · rw [stepAccesses_of_illegal hrun hop]
      exact stepAccesses_of_illegal (s := { s with mem := m }) hrun
        (select_illegal_of_agree hread hrun hop :)

end OtherMemory

/-- A meaning learns from memory its data access alone, which LDA has. -/
theorem exec_of_agree {m : Memory} (hnext : exec i s = .next t)
    (hread : ∀ x, Access.read x ∈ dataAccesses i s → m.read x = s.memRead x) :
    ∃ t', exec i { s with mem := m } = .next t' ∧ t' = { t with mem := t'.mem } := by
  cases i with
  | lda addr =>
    obtain rfl := Host.Outcome.next.inj hnext
    have hloaded : ({ s with mem := m } : State).memRead addr = s.memRead addr := hread addr List.mem_cons_self
    rw [exec_lda, hloaded]
    exact ⟨_, rfl, rfl⟩
  | jz addr | jc addr =>
    obtain rfl := Host.Outcome.next.inj hnext
    refine ⟨_, rfl, ?_⟩
    rw [State.jumpIf_eq, State.jumpIf_eq]
  | nop | ldiA imm | ldiB imm | sta addr | addB | subB | andB | orB | xorB | notA | jmp addr | input | output | hlt =>
    obtain rfl := Host.Outcome.next.inj hnext
    exact ⟨_, rfl, rfl⟩

theorem step_of_agree {m : Memory} (hread : ∀ x, Access.read x ∈ stepAccesses s → m.read x = s.memRead x)
    (hstep : step s = .next t) :
    ∃ t', step { s with mem := m } = .next t' ∧ t' = { t with mem := t'.mem } := by
  obtain ⟨hhalted, rfl⟩ | ⟨hrun, i, rest, hdecode, hnext⟩ := step_eq_next_cases hstep
  · exact ⟨_, step_of_halted hhalted, rfl⟩
  · obtain ⟨rest', hdecode'⟩ := decode_of_agree hread hrun hdecode
    rw [stepAccesses_of_decode hrun hdecode] at hread
    rw [step_of_decode (s := { s with mem := m }) hrun hdecode']
    exact (exec_of_agree hnext fun x hx => hread x (List.mem_append_right _ hx) :)

/-- Settles O57: the bytes fetched agree, so both states run the same instruction or fault on the same byte, and LDA
loads the same byte. -/
theorem stepDependsOnCellsItReadsOnly : Obligations.StepDependsOnCellsItReadsOnly := by
  intro s s' hmem hread
  obtain ⟨m, rfl⟩ : ∃ m, s' = { s with mem := m } := ⟨s'.mem, hmem⟩
  refine ⟨stepAccesses_of_agree hread, fun _ => step_of_agree hread, fun op t hstep => ?fault⟩
  case fault =>
    obtain ⟨hrun, hop, hfault⟩ := (step_eq_fault_iff ..).mp hstep
    cases hfault
    have hbyte : ({ s with mem := m } : State).memRead s.pc = s.memRead s.pc :=
      read_pc_eq_of_agree hread ⟨_, stepAccesses_of_illegal hrun hop⟩
    rw [← hbyte] at hop ⊢
    exact ⟨_, step_of_illegal (s := { s with mem := m }) hrun hop, rfl⟩

end Sys2Proof.Machine
end


section
/-! SUPPORT. What each instruction leaves alone, and the closed forms of arithmetic (`10_state.md` R10, `42_alu.md` R96). -/

namespace Sys2Proof.Machine

/-! ### Closed forms -/

namespace State

variable (s : State)

/-- Carry and A together are the whole 9-bit result. -/
theorem setAFromNine_carry_and_a (r : Nine) :
    (s.setAFromNine r).flags.c.toNat * 256 + (s.setAFromNine r).a.toNat = r.toNat := by
  rw [setAFromNine_flags, flagsFrom_c_toNat, bit8_toNat, setAFromNine_a_toNat, Nat.div_add_mod']

theorem setAWithFlags_z_toNat (v : Byte) (carry : Nat) :
    (s.setAWithFlags v carry).flags.z = decide ((s.setAWithFlags v carry).a.toNat = 0) := by
  have hzero : v = 0 ↔ v.toNat = 0 := BitVec.toNat_inj.symm
  rw [setAWithFlags_flags, flagsFrom_z, setAWithFlags_a, beq_eq_decide, decide_eq_decide.mpr hzero]

theorem setAWithFlags_n_toNat (v : Byte) (carry : Nat) :
    (s.setAWithFlags v carry).flags.n = decide ((s.setAWithFlags v carry).a.toNat ≥ 128) := by
  rw [setAWithFlags_flags, flagsFrom_n, setAWithFlags_a, bit7_eq_decide]

end State

/-- The six operations write A and all three flags from A and B alone. -/
theorem exec_alu {i : Instr} (halu : i ∈ [Instr.addB, .subB, .andB, .orB, .xorB, .notA]) (s : State) :
    ∃ v carry, ∀ g : Flags, exec i { s with flags := g } = .next (s.setAWithFlags v carry) := by
  cases i with
  | addB => exact ⟨(sum9 s.a s.b).setWidth 8, (sum9 s.a s.b)[8].toNat, fun _ => rfl⟩
  | subB => exact ⟨(difference9 s.a s.b).setWidth 8, (difference9 s.a s.b)[8].toNat, fun _ => rfl⟩
  | andB => exact ⟨s.a &&& s.b, 0, fun _ => rfl⟩
  | orB => exact ⟨s.a ||| s.b, 0, fun _ => rfl⟩
  | xorB => exact ⟨s.a ^^^ s.b, 0, fun _ => rfl⟩
  | notA => exact ⟨~~~s.a, 0, fun _ => rfl⟩
  | nop | ldiA imm | ldiB imm | lda addr | sta addr | jmp addr | jz addr | jc addr | input | output | hlt =>
    simp at halu

/-- Settles O36: ADD and SUB write back the 9-bit sum and difference, the others a byte with carry term 0. -/
theorem arithmeticWrapsModulo256 : Obligations.ArithmeticWrapsModulo256 := by
  refine ⟨fun s t hnext => ?add, fun s t hnext => ?sub, fun s t hnext => ?and, fun s t hnext => ?or,
    fun s t hnext => ?xor, fun s t hnext => ?not, fun i s t halu hnext => ?flags⟩
  case flags =>
    obtain ⟨v, carry, hexec⟩ := exec_alu halu s
    obtain rfl := Host.Outcome.next.inj ((hexec s.flags).symm.trans hnext)
    exact ⟨s.setAWithFlags_z_toNat v carry, s.setAWithFlags_n_toNat v carry, hexec⟩
  all_goals obtain rfl := Host.Outcome.next.inj hnext
  case add => rw [State.setAFromNine_carry_and_a, sum9_toNat]
  case sub =>
    rw [State.setAFromNine_carry_and_a, difference9_toInt, State.setAFromNine_c,
      decide_eq_decide.mpr (difference9_ge_iff_lt s.a s.b)]
    exact ⟨rfl, rfl⟩
  case and => exact ⟨rfl, fun k => BitVec.getLsbD_and⟩
  case or => exact ⟨rfl, fun k => BitVec.getLsbD_or⟩
  case xor => exact ⟨rfl, fun k => BitVec.getLsbD_xor⟩
  case not => exact ⟨rfl, BitVec.toNat_not⟩

/-! ### Frames -/

/-- Settles O37: all nine are the shared write of A and the flags. -/
theorem frameOfAccumulatorInstructions : Obligations.FrameOfAccumulatorInstructions := by
  intro i s t hwriter hnext
  cases i with
  | ldiA imm | lda addr | addB | subB | andB | orB | xorB | notA | input =>
    obtain rfl := Host.Outcome.next.inj hnext
    exact ⟨rfl, rfl, rfl, rfl, fun _ => rfl⟩
  | nop | ldiB imm | sta addr | jmp addr | jz addr | jc addr | output | hlt => simp at hwriter

/-- Settles O38: LDI B is the shared write of B and the flags. -/
theorem frameOfLdiB : Obligations.FrameOfLdiB := by
  intro imm s t hnext
  obtain rfl := Host.Outcome.next.inj hnext
  exact ⟨rfl, rfl, rfl, rfl, fun _ => rfl⟩

/-- Settles O39: STA is one memory write, which every other cell reads through. -/
theorem frameOfStore : Obligations.FrameOfStore := by
  intro operand s t hnext
  obtain rfl := Host.Outcome.next.inj hnext
  refine ⟨rfl, rfl, rfl, rfl, rfl, rfl, ?_⟩
  rintro _ rfl x hother
  exact Memory.read_write_other s.mem s.a hother

/-- Settles O40: a transfer of control writes PC alone, taken or not. -/
theorem frameOfJumps : Obligations.FrameOfJumps := by
  rintro i s t addr (rfl | rfl | rfl) hnext
  · obtain rfl := Host.Outcome.next.inj hnext
    exact ⟨rfl, rfl, rfl, rfl, rfl, fun _ => rfl⟩
  · obtain rfl := Host.Outcome.next.inj ((exec_jz_eq_if addr s).symm.trans hnext)
    exact ⟨rfl, rfl, rfl, rfl, rfl, fun _ => rfl⟩
  · obtain rfl := Host.Outcome.next.inj ((exec_jc_eq_if addr s).symm.trans hnext)
    exact ⟨rfl, rfl, rfl, rfl, rfl, fun _ => rfl⟩

/-- Settles O41: NOP writes nothing, OUT and HLT one field each. -/
theorem frameOfNopOutHlt : Obligations.FrameOfNopOutHlt := by
  rintro i s t (rfl | rfl | rfl) hnext
  · obtain rfl := Host.Outcome.next.inj hnext
    exact ⟨rfl, rfl, rfl, rfl, fun _ => rfl, fun _ => rfl, fun _ => rfl⟩
  · obtain rfl := Host.Outcome.next.inj hnext
    exact ⟨rfl, rfl, rfl, rfl, fun _ => rfl, fun hne => absurd rfl hne, fun _ => rfl⟩
  · obtain rfl := Host.Outcome.next.inj hnext
    exact ⟨rfl, rfl, rfl, rfl, fun _ => rfl, fun _ => rfl, fun hne => absurd rfl hne⟩

end Sys2Proof.Machine
end


section
/-! SUPPORT. The "written by" column of `10_state.md` R10. -/

namespace Sys2Proof.Machine

variable {i : Instr} {s t : State}

/-! ### Each element of the state: written by one of its writers, or kept -/

theorem exec_memRead_of_ne_sta {x : Byte} (hnext : exec i s = .next t) (hne : i ≠ .sta x) :
    t.memRead x = s.memRead x := by
  cases i with
  | sta addr =>
    obtain rfl := Host.Outcome.next.inj hnext
    exact Memory.read_write_other s.mem s.a fun hx => hne (congrArg Instr.sta hx.symm)
  | nop | ldiA imm | ldiB imm | lda addr | addB | subB | andB | orB | xorB | notA | jmp addr | jz addr | jc addr
  | input | output | hlt => exact State.memRead_eq_of_mem (exec_mem hnext) x

theorem exec_a_written_or_kept (hnext : exec i s = .next t) :
    ((∃ imm, i = .ldiA imm) ∨ (∃ addr, i = .lda addr) ∨
      i ∈ [Instr.addB, .subB, .andB, .orB, .xorB, .notA, .input]) ∨ t.a = s.a := by
  cases i with
  | ldiA imm => exact .inl (.inl ⟨imm, rfl⟩)
  | lda addr => exact .inl (.inr (.inl ⟨addr, rfl⟩))
  | addB | subB | andB | orB | xorB | notA | input => exact .inl (.inr (.inr (by decide)))
  | jz addr | jc addr =>
    obtain rfl := Host.Outcome.next.inj hnext
    exact .inr (State.jumpIf_a s _ _)
  | nop | ldiB imm | sta addr | jmp addr | output | hlt =>
    obtain rfl := Host.Outcome.next.inj hnext
    exact .inr rfl

theorem exec_flags_written_or_kept (hnext : exec i s = .next t) :
    ((∃ imm, i = .ldiA imm ∨ i = .ldiB imm) ∨ (∃ addr, i = .lda addr) ∨
      i ∈ [Instr.addB, .subB, .andB, .orB, .xorB, .notA, .input]) ∨ t.flags = s.flags := by
  have hflags := flagsColumnOfEachInstruction i s t hnext
  cases i with
  | ldiA imm => exact .inl (.inl ⟨imm, .inl rfl⟩)
  | ldiB imm => exact .inl (.inl ⟨imm, .inr rfl⟩)
  | lda addr => exact .inl (.inr (.inl ⟨addr, rfl⟩))
  | addB | subB | andB | orB | xorB | notA | input => exact .inl (.inr (.inr (by decide)))
  | nop | sta addr | jmp addr | jz addr | jc addr | output | hlt => exact .inr hflags

theorem exec_pc_written_or_kept (hnext : exec i s = .next t) :
    (i = .jmp t.pc ∨ (i = .jz t.pc ∧ s.flags.z = true) ∨ (i = .jc t.pc ∧ s.flags.c = true)) ∨ t.pc = s.pc := by
  cases i with
  | jmp addr =>
    obtain rfl := Host.Outcome.next.inj hnext
    exact .inl (.inl rfl)
  | jz addr =>
    obtain rfl := Host.Outcome.next.inj ((exec_jz_eq_if addr s).symm.trans hnext)
    by_cases hzero : s.flags.z = true
    · exact .inl (.inr (.inl ⟨congrArg Instr.jz (if_pos hzero).symm, hzero⟩))
    · exact .inr (if_neg hzero)
  | jc addr =>
    obtain rfl := Host.Outcome.next.inj ((exec_jc_eq_if addr s).symm.trans hnext)
    by_cases hcarry : s.flags.c = true
    · exact .inl (.inr (.inr ⟨congrArg Instr.jc (if_pos hcarry).symm, hcarry⟩))
    · exact .inr (if_neg hcarry)
  | nop | ldiA imm | ldiB imm | lda addr | sta addr | addB | subB | andB | orB | xorB | notA | input | output | hlt =>
    exact .inr (exec_pc_of_not_jump hnext (by simp))

/-- HLT writes `halted`, and it writes true. -/
theorem exec_halted_changed (hnext : exec i s = .next t) (hchanged : t.halted ≠ s.halted) :
    i = .hlt ∧ t.halted = true := by
  have hhalted := exec_halted hnext
  by_cases hhlt : i = .hlt
  · exact ⟨hhlt, by rw [hhalted, decide_eq_true hhlt, Bool.or_true]⟩
  · rw [decide_eq_false hhlt, Bool.or_false] at hhalted
    exact absurd hhalted hchanged

/-- Settles O42, element by element: one that no writer wrote is kept. -/
theorem eachElementHasOnlyItsWriters : Obligations.EachElementHasOnlyItsWriters := by
  refine fun i s t hnext => ⟨fun hb => ?b, fun hout => ?out, exec_halted_changed hnext, fun x hx => ?cell,
    (exec_a_written_or_kept hnext).resolve_right, (exec_flags_written_or_kept hnext).resolve_right,
    (exec_pc_written_or_kept hnext).resolve_right⟩
  case b =>
    by_contra hne
    exact hb (exec_b_of_ne_ldiB hnext (not_exists.mp hne))
  case out =>
    by_contra hne
    exact hout (exec_out_of_ne_output hnext hne)
  case cell =>
    by_contra hne
    exact hx (exec_memRead_of_ne_sta hnext hne)

end Sys2Proof.Machine
end
